-- ==== Sys2Proof/Word.lean ====
section
/-! DEFINITION. The word type of KCORE (00_scope.md R10, R13). -/

namespace Sys2Proof

/-- The document's Word64: a 64-bit pattern, bit 0 least significant (R10, R13). -/
abbrev Word := BitVec 64

/-- A 128-bit pattern, `high` in bits 127:64 and `low` in bits 63:0 (R13). -/
abbrev WideWord := BitVec 128

end Sys2Proof
end

