-- ==== Sys2Proof/Syntax.lean ====
section
/-! DEFINITION. The command set: the request format REQ, one constructor of `Instr` for each row of
spec/opcode_table.json, and the names the requester's notation uses (30_encoding.md). -/

namespace Sys2Proof

/-- A request: the five fields sampled at acceptance (30_encoding.md R53). -/
structure Request where
  op : BitVec 4
  a : Word
  b : Word
  c : Word
  d : Word
  deriving DecidableEq, Repr

/-- The operations (R55, R58). Every constructor carries all four operand ports, also those its operation ignores
(10_state.md R26), so that no bit of a request is dropped. The names of the arguments are the ports'. -/
inductive Instr where
  /-- OP 0000, add with carry (R69). -/
  | adc (a b c d : Word)
  /-- OP 0001, subtract with borrow (R73). -/
  | sbb (a b c d : Word)
  /-- OP 0010, unsigned widening multiply (R78). -/
  | mulu (a b c d : Word)
  /-- OP 0011, signed widening multiply (R82). -/
  | muls (a b c d : Word)
  /-- OP 0100, unsigned widening divide (R87). -/
  | divu (a b c d : Word)
  /-- OP 0101, read cycle counter (R93). -/
  | rdcyc (a b c d : Word)
  /-- OP 0110, per-lane shift left (R99). -/
  | vshl (a b c d : Word)
  /-- OP 0111, per-lane subtract (R102). -/
  | vsub (a b c d : Word)
  /-- OP 1xxx, the reserved values (R56); `op` is the whole OP field. -/
  | reserved (op : BitVec 4) (a b c d : Word)
  deriving DecidableEq, Repr

/-- The name of an operation, without its operands: the eight mnemonics (R55, R67) and the reserved space (R56). -/
inductive OpName where
  | adc | sbb | mulu | muls | divu | rdcyc | vshl | vsub
  | reserved
  deriving DecidableEq, Repr

/-- The output ports that can carry a result (10_state.md R23). FCODE is none: it always holds a value (R62). -/
inductive Port where
  | r0 | r1 | flag
  deriving DecidableEq, Repr

/-- Where an operand word of an offered request comes from (30_encoding.md R64): a literal's 64-bit pattern, or an
output port of an earlier transaction, which the requester names by the tag it gave that transaction (log 8). -/
inductive Source where
  | lit (w : Word)
  | out (tag : Nat) (port : Port)
  deriving DecidableEq, Repr

/-- What a requester offers while `req_valid` = 1: OP and the four operand words, each with its source, under a tag
of the requester's own (R64's label). -/
structure Offer where
  tag : Nat
  op : BitVec 4
  a : Source
  b : Source
  c : Source
  d : Source
  deriving DecidableEq, Repr

end Sys2Proof
end

