-- ==== Sys2Proof/WellFormed.lean ====
section
/-! DEFINITION. Which terms of `Instr` are commands of the encoding (30_encoding.md R55, R56). -/

namespace Sys2Proof

/-- `Instr.reserved` is a command only with an OP value of the reserved space 1xxx (R56); the eight operations have
no ill-formed operands (R59: every operand word comes whole from its port; a word outside an operation's domain is a
request that faults, R60, not an ill-formed one). -/
def Instr.wellFormed : Instr → Bool
  | .adc _ _ _ _ => true
  | .sbb _ _ _ _ => true
  | .mulu _ _ _ _ => true
  | .muls _ _ _ _ => true
  | .divu _ _ _ _ => true
  | .rdcyc _ _ _ _ => true
  | .vshl _ _ _ _ => true
  | .vsub _ _ _ _ => true
  | .reserved op _ _ _ _ => decide (8 ≤ op.toNat)

end Sys2Proof
end

