-- ==== Sys2Proof/Decode.lean ====
section
/-! DEFINITION. Decoding and encoding of requests (30_encoding.md R53-R58), and the numbering of a request's bits as
one word. -/

namespace Sys2Proof

/-! ### The request as one word -/

/-- A request as one word of 260 bits: OP in bits 3:0, then A, B, C and D, each 64 bits, upwards.
DESIGN CHOICE: the spec gives five ports and no joint numbering (log 10). -/
abbrev ReqBits := BitVec 260

/-- The word of a request (R53's fields in their order, log 10). -/
def Request.pack (r : Request) : ReqBits := r.d ++ (r.c ++ (r.b ++ (r.a ++ r.op)))

/-- The request whose fields stand in a number: bits 3:0, 67:4, 131:68, 195:132 and 259:196 (log 10). -/
def Request.ofNat (n : Nat) : Request where
  op := BitVec.ofNat 4 n
  a := BitVec.ofNat 64 (n >>> 4)
  b := BitVec.ofNat 64 (n >>> 68)
  c := BitVec.ofNat 64 (n >>> 132)
  d := BitVec.ofNat 64 (n >>> 196)

/-- The request whose fields stand in a word. -/
def Request.unpack (w : ReqBits) : Request := Request.ofNat w.toNat

/-! ### The decoder -/

/-- The decoder (R53: OP alone selects the operation; R55's table; R57: total). -/
def decodeReq (r : Request) : Instr :=
  match r.op.toNat with
  | 0 => .adc r.a r.b r.c r.d
  | 1 => .sbb r.a r.b r.c r.d
  | 2 => .mulu r.a r.b r.c r.d
  | 3 => .muls r.a r.b r.c r.d
  | 4 => .divu r.a r.b r.c r.d
  | 5 => .rdcyc r.a r.b r.c r.d
  | 6 => .vshl r.a r.b r.c r.d
  | 7 => .vsub r.a r.b r.c r.d
  | _ => .reserved r.op r.a r.b r.c r.d

/-- The instruction a request word stands for. -/
def decode (w : ReqBits) : Instr := decodeReq (Request.unpack w)

/-- Why a number is no request word. -/
inductive WireError where
  /-- It has a bit that is set above the request's 260 bits: no port carries it (R53, R54: every request has the
  same length). Raised by `decodeWire`; safe. -/
  | beyondRequest
  deriving DecidableEq, Repr

/-- The decoder on any number of bits: a number with bits above the request's is rejected by name. -/
def decodeWire (n : Nat) : Except WireError Instr :=
  if n >>> 260 = 0 then .ok (decodeReq (Request.ofNat n)) else .error .beyondRequest

/-- The host's question: the instruction of the bits of `w` below `nbits`, every bit above being 0. -/
def decodeTableWord (nbits w : Nat) : Option Instr := (decodeWire (w % 2 ^ nbits)).toOption

/-! ### The encoder -/

/-- The OP value of a command (R55; a reserved command carries its own). -/
def Instr.opValue : Instr → BitVec 4
  | .adc _ _ _ _ => 0b0000#4
  | .sbb _ _ _ _ => 0b0001#4
  | .mulu _ _ _ _ => 0b0010#4
  | .muls _ _ _ _ => 0b0011#4
  | .divu _ _ _ _ => 0b0100#4
  | .rdcyc _ _ _ _ => 0b0101#4
  | .vshl _ _ _ _ => 0b0110#4
  | .vsub _ _ _ _ => 0b0111#4
  | .reserved op _ _ _ _ => op

/-- The request of a command (R53, R58). -/
def encodeReq (i : Instr) : Request :=
  match i with
  | .adc a b c d => ⟨i.opValue, a, b, c, d⟩
  | .sbb a b c d => ⟨i.opValue, a, b, c, d⟩
  | .mulu a b c d => ⟨i.opValue, a, b, c, d⟩
  | .muls a b c d => ⟨i.opValue, a, b, c, d⟩
  | .divu a b c d => ⟨i.opValue, a, b, c, d⟩
  | .rdcyc a b c d => ⟨i.opValue, a, b, c, d⟩
  | .vshl a b c d => ⟨i.opValue, a, b, c, d⟩
  | .vsub a b c d => ⟨i.opValue, a, b, c, d⟩
  | .reserved _ a b c d => ⟨i.opValue, a, b, c, d⟩

/-- The word of a command. -/
def encode (i : Instr) : ReqBits := (encodeReq i).pack

/-! ### Names, and the opcode table as rows -/

/-- The operation a command names. -/
def Instr.name : Instr → OpName
  | .adc _ _ _ _ => .adc
  | .sbb _ _ _ _ => .sbb
  | .mulu _ _ _ _ => .mulu
  | .muls _ _ _ _ => .muls
  | .divu _ _ _ _ => .divu
  | .rdcyc _ _ _ _ => .rdcyc
  | .vshl _ _ _ _ => .vshl
  | .vsub _ _ _ _ => .vsub
  | .reserved _ _ _ _ _ => .reserved

/-- One row of opcode_table.json: an OP value belongs to the row when its bits under `mask` are `pattern`. -/
structure OpRow where
  name : OpName
  mask : BitVec 4
  pattern : BitVec 4
  deriving DecidableEq, Repr

/-- opcode_table.json, row by row (the same rows as R55's table). -/
def opcodeTable : List OpRow :=
  [ ⟨.adc, 0xF#4, 0x0#4⟩, ⟨.sbb, 0xF#4, 0x1#4⟩, ⟨.mulu, 0xF#4, 0x2#4⟩, ⟨.muls, 0xF#4, 0x3#4⟩,
    ⟨.divu, 0xF#4, 0x4#4⟩, ⟨.rdcyc, 0xF#4, 0x5#4⟩, ⟨.vshl, 0xF#4, 0x6#4⟩, ⟨.vsub, 0xF#4, 0x7#4⟩,
    ⟨.reserved, 0x8#4, 0x8#4⟩ ]

/-- Whether an OP value belongs to a row. -/
def OpRow.covers (row : OpRow) (op : BitVec 4) : Bool := op &&& row.mask == row.pattern

end Sys2Proof
end

