-- ==== Sys2Proof/Config.lean ====
section
/-! DEFINITION. The open parameters of the spec (00_scope.md R11) that are free values: constants without a body,
so that nothing can be proved of the value they take. LATENCY and N_INST are data of a run instead
(`Edge.done`, the size of `Instances`; log 2, log 14). -/

namespace Sys2Proof.Config

/-- CNT_RESET (R11, R33): the value CNT takes at a reset of instance `inst`, the draw numbered `draw`.
DESIGN CHOICE (safe): one draw for each reset, log 3. -/
opaque cntReset (inst draw : Nat) : Word

/-- CNT_ADVANCE (R11, R32, R97): how much time adds to CNT of instance `inst` at the draw numbered `draw`, any
non-negative integer. DESIGN CHOICE: one draw for each clock edge, log 4. -/
opaque cntAdvance (inst draw : Nat) : Nat

end Sys2Proof.Config
end

