-- ==== Sys2Proof/Machine/State.lean ====
section
/-! DEFINITION. The state of one KCORE instance and of the requester that drives it, the reasons a step can stop,
and the state after reset. Plain data only. -/

namespace Sys2Proof.Machine

/-- The fault codes a response can carry (60_exceptions.md R105). Codes 6 and 7 are reserved and never produced, so
they have no constructor (R105, 93_implementation_defined.md U8). -/
inductive FCode where
  /-- FCODE 0: the request was in its domain. -/
  | noFault
  /-- FCODE 1, IllegalOp (R106). -/
  | illegalOp
  /-- FCODE 2, CarryInRange (R107). -/
  | carryInRange
  /-- FCODE 3, DivideByZero (R108). -/
  | divideByZero
  /-- FCODE 4, DivideOverflow (R109). -/
  | divideOverflow
  /-- FCODE 5, ShiftRange (R110). -/
  | shiftRange
  deriving DecidableEq, Repr

/-- A response (10_state.md R18, R23). `none` on a result port: the port holds no value (R27). -/
structure Response where
  r0 : Option Word
  r1 : Option Word
  flag : Option (BitVec 1)
  fcode : FCode
  deriving DecidableEq, Repr

/-- The transaction state of an instance (10_state.md R36): at most one transaction is in flight (R25), so R36's
in-flight transaction and presented response exclude each other. -/
inductive Phase where
  /-- Nothing is in flight and no response is presented. -/
  | idle
  /-- A request was accepted and is not answered yet. -/
  | inFlight (req : Request)
  /-- A response is presented and not taken yet (`rsp_valid` = 1). -/
  | presented (rsp : Response)
  deriving DecidableEq, Repr

/-- What a requester does when the response it takes is a fault response (60_exceptions.md R114: it is up to the
requester). DESIGN CHOICE: each edge says which, so that R111's and R123's readings both stand (log 7). -/
inductive FaultPolicy where
  /-- It goes on; KCORE accepts the next request as usual (R111). -/
  | carryOn
  /-- It stops: R123's reading of a fault, a fault outcome of the step. -/
  | stop
  deriving DecidableEq, Repr

/-- What one rising edge of `clk` carries (10_state.md R22, R25), and whether LATENCY is over at it.
The MODEL's own record of the inputs, DESIGN CHOICE, log 1, log 2. -/
structure Edge where
  /-- The reset input (70_reset_and_hazards.md R124). -/
  rst : Bool
  /-- `req_valid`, and when it is 1 what OP, A, B, C and D carry. -/
  req : Option Offer
  /-- Whether a transaction in flight gets its response at this edge (LATENCY, R11, R131). -/
  done : Bool
  /-- `rsp_ready`. -/
  rspReady : Bool
  /-- What the requester does if it takes a fault response at this edge. -/
  onFault : FaultPolicy
  deriving DecidableEq, Repr

/-- The requester's note of the last request that was accepted, and the tag it offered it under. -/
structure Asked where
  tag : Nat
  req : Request
  deriving DecidableEq, Repr

/-- One entry of the requester's record: a transaction whose response it took, or a reset. -/
inductive Entry where
  | answered (tag : Nat) (req : Request) (rsp : Response)
  | wasReset
  deriving DecidableEq, Repr

/-- One KCORE instance (`cnt`, `unit`: the complete state R36 gives it) with the model's own fields around it. -/
structure State where
  /-- The cycle counter CNT (10_state.md R30, R31). -/
  cnt : Word
  /-- The transaction in flight or the presented response (10_state.md R36). -/
  unit : Phase
  /-- Model's own: which instance's free draws are read (R38, log 5). -/
  inst : Nat
  /-- Model's own: how many free draws have been read (log 5). -/
  draws : Nat
  /-- Model's own: what the rising edges to come carry (log 1). -/
  lines : List Edge
  /-- Model's own, of the requester: the last request that was accepted (log 8). -/
  asked : Asked
  /-- Model's own, of the requester: the responses it has taken, newest first (log 8). -/
  record : List Entry
  deriving DecidableEq, Repr

/-- The reasons a step stops. No instruction's meaning raises one. -/
inductive Fault where
  /-- A requester whose policy at this edge is `stop` took a fault response of operation `op` (60_exceptions.md R123:
  the fault outcome names the operation and FCODE). Raised by `State.take`; safe. -/
  | faultResponse (op : OpName) (code : FCode)
  /-- An accepted offer reads output `port` of the transaction tagged `tag`, which holds no value (10_state.md R27:
  reading it is a fault of the model, never a number; DEDUCED that passing it on as an operand is reading it, log 6).
  Raised by `State.accept`; safe. -/
  | portHoldsNoValue (tag : Nat) (port : Port)
  /-- An accepted offer refers to a transaction whose response the requester has not taken (30_encoding.md R64: an
  assembly error; 70_reset_and_hazards.md R128; DEDUCED, log 9). Raised by `State.accept`; safe. -/
  | noSuchResponse (tag : Nat)
  deriving DecidableEq, Repr

/-- The refusals. -/
inductive Refusal where
  /-- An instruction without a meaning; no arm of `exec` uses it. Safe. -/
  | notModelled (mnemonic : String)
  /-- A recorded response carries FCODE 6 or 7 (93_implementation_defined.md U8: a decoder of recorded responses
  refuses them). Raised by `readRecorded`; safe. -/
  | reservedFcode (code : BitVec 3)
  /-- `Instances.stepAt` was asked for an instance that does not exist (R11: there are N_INST). Safe. -/
  | noInstance (k : Nat)
  deriving DecidableEq, Repr

/-- The requester's note before any request was accepted; it is never read then (log 8). -/
def Asked.initial : Asked := ⟨0, ⟨0#4, 0#64, 0#64, 0#64, 0#64⟩⟩

/-- Instance `inst` right after reset (70_reset_and_hazards.md R125, R126): nothing in flight, nothing presented, CNT
at the parameter CNT_RESET, and no outside input yet. -/
def State.resetOf (inst : Nat) : State where
  cnt := Config.cntReset inst 0
  unit := .idle
  inst := inst
  draws := 1
  lines := []
  asked := Asked.initial
  record := []

/-- The machine right after reset: instance 0. -/
def State.reset : State := State.resetOf 0

end Sys2Proof.Machine
end

