-- ==== Sys2Proof/Machine/Operands.lean ====
section
/-! DEFINITION. How operand words are read and result words made (00_scope.md R14, 30_encoding.md R59), the domain
checks (R60), and how an offered operand's source is read (R64). -/

namespace Sys2Proof.Machine

/-- `uint(x)`: the pattern read as an unsigned integer (00_scope.md R14). -/
def uint (x : Word) : Int := (x.toNat : Int)

/-- `sint(x)`: the pattern read as two's complement (R14). -/
def sint (x : Word) : Int := x.toInt

/-- `bits_64(v)`: the 64-bit pattern of v mod 2^64 (R14). -/
def bits64 (v : Int) : Word := BitVec.ofInt 64 v

/-- `bits_128(v)` (R14). -/
def bits128 (v : Int) : WideWord := BitVec.ofInt 128 v

/-- q[63:0], the low half of a wide value (R13, R24). -/
def lowHalf (q : WideWord) : Word := q.extractLsb' 0 64

/-- q[127:64], the high half of a wide value (R13, R24). -/
def highHalf (q : WideWord) : Word := q.extractLsb' 64 64

/-- {high, low} (R13, R41). -/
def joinHalves (high low : Word) : WideWord := high ++ low

/-- The packed form of a LaneVector that the test vectors use, {lane1, lane0} (20_memory.md R41). It is a convention
of theirs, not part of KCORE's interface. -/
def packLanes (lane0 lane1 : Word) : WideWord := joinHalves lane1 lane0

/-- ADC's and SBB's check of port C: uint(C) ∈ {0, 1} (30_encoding.md R60). -/
def carryInRange (c : Word) : Bool := decide (uint c ≤ 1)

/-- DIVU's first check: uint(C) ≠ 0 (R60). -/
def divisorNonzero (c : Word) : Bool := decide (uint c ≠ 0)

/-- DIVU's second check: uint(A) < uint(C) (R60, 42_divide.md R88). -/
def quotientFits (a c : Word) : Bool := decide (uint a < uint c)

/-- VSHL's check of port C: uint(C) ≤ 63, on all 64 bits (R60). -/
def shiftInRange (c : Word) : Bool := decide (uint c ≤ 63)

/-- What a result port holds, as a 64-bit word; FLAG is zero-extended (R64). `none`: it holds no value. -/
def Response.port (rsp : Response) : Port → Option Word
  | .r0 => rsp.r0
  | .r1 => rsp.r1
  | .flag => rsp.flag.map (BitVec.setWidth 64)

/-- The newest response in the requester's record that was taken under `tag`. -/
def findTagged (tag : Nat) : List Entry → Option Response
  | [] => none
  | .wasReset :: es => findTagged tag es
  | .answered t _ rsp :: es => if t = tag then some rsp else findTagged tag es

/-- The value of an operand's source, from the responses the requester has taken (R64, R68). A port that holds no
value is not read as a number (10_state.md R27). -/
def sourceValue (record : List Entry) : Source → Except Fault Word
  | .lit w => .ok w
  | .out tag p =>
    match findTagged tag record with
    | none => .error (.noSuchResponse tag)
    | some rsp =>
      match rsp.port p with
      | none => .error (.portHoldsNoValue tag p)
      | some w => .ok w

/-- The request an offer puts on the ports OP, A, B, C and D, its operands read in port order
(DEDUCED: the order decides only which fault is named, log 9). DESIGN CHOICE (log 16): all four sources are read,
whatever the OP, so that a source that cannot be read faults also on a port the operation ignores (10_state.md R26,
R27, 30_encoding.md R58) and on any port of a reserved OP, before decode (60_exceptions.md R112). -/
def resolveOffer (record : List Entry) (o : Offer) : Except Fault Request :=
  match sourceValue record o.a with
  | .error f => .error f
  | .ok a =>
    match sourceValue record o.b with
    | .error f => .error f
    | .ok b =>
      match sourceValue record o.c with
      | .error f => .error f
      | .ok c =>
        match sourceValue record o.d with
        | .error f => .error f
        | .ok d => .ok ⟨o.op, a, b, c, d⟩

end Sys2Proof.Machine
end

