-- ==== Sys2Proof/Machine/Flags.lean ====
section
/-! DEFINITION. The FLAG port (10_state.md R28, R29): carry-out of an exact sum and borrow-out of an exact
difference. KCORE has no flag register. -/

namespace Sys2Proof.Machine

/-- Bit 64 of the exact sum s: 1 iff s ≥ 2^64 (40_carry_borrow.md R69). -/
def carryOut (s : Int) : BitVec 1 := if 2 ^ 64 ≤ s then 1#1 else 0#1

/-- The borrow of the exact difference d: 1 iff d < 0 (40_carry_borrow.md R73). -/
def borrowOut (d : Int) : BitVec 1 := if d < 0 then 1#1 else 0#1

end Sys2Proof.Machine
end

