-- ==== Sys2Proof/Machine/Ops.lean ====
section
/-! DEFINITION. The shared operations: making a response, raising a fault, presenting a response, and what one
rising edge does to the rest of the state (handshake, reset, the counter). -/

namespace Sys2Proof.Machine

/-! ### Responses (30_encoding.md R61, R62) -/

/-- The response of ADC and SBB: mask (R0, R1, FLAG) = (1, 0, 1). -/
def flagged (r0 : Word) (flag : BitVec 1) : Response := ⟨some r0, none, some flag, .noFault⟩

/-- The response of MULU, MULS, DIVU, VSHL and VSUB: mask (1, 1, 0). -/
def paired (r0 r1 : Word) : Response := ⟨some r0, some r1, none, .noFault⟩

/-- The response of RDCYC: mask (1, 0, 0). -/
def single (r0 : Word) : Response := ⟨some r0, none, none, .noFault⟩

/-- TAKING AN EXCEPTION, `raise Fault(code)` (00_scope.md R15; 60_exceptions.md R111): the operation ends with a
response that carries the code and no value on R0, R1 or FLAG. KCORE saves no state, changes no mode and goes nowhere
(R114), so there is nothing to return from (R115): the transaction ends when this response is taken, like any other. -/
def raiseFault (code : FCode) : Response := ⟨none, none, none, code⟩

/-- The transaction in flight gets its response (10_state.md R25): it is presented from now on, and nothing else
changes (R39, R44, R111). -/
def State.present (s : State) (rsp : Response) : State := { s with unit := .presented rsp }

/-! ### FCODE as bits (60_exceptions.md R105) -/

/-- The 3-bit value on FCODE. -/
def FCode.bits : FCode → BitVec 3
  | .noFault => 0#3
  | .illegalOp => 1#3
  | .carryInRange => 2#3
  | .divideByZero => 3#3
  | .divideOverflow => 4#3
  | .shiftRange => 5#3

/-- The code of a 3-bit value; 6 and 7 are reserved (R105). -/
def FCode.ofBits (v : BitVec 3) : Option FCode :=
  match v.toNat with
  | 0 => some .noFault
  | 1 => some .illegalOp
  | 2 => some .carryInRange
  | 3 => some .divideByZero
  | 4 => some .divideOverflow
  | 5 => some .shiftRange
  | _ => none

/-- The defined-output set of an operation for FCODE = 0, as (R0, R1, FLAG) (30_encoding.md R62). A reserved OP has
no successful response. -/
def definedPorts : OpName → Bool × Bool × Bool
  | .adc => (true, false, true)
  | .sbb => (true, false, true)
  | .mulu => (true, true, false)
  | .muls => (true, true, false)
  | .divu => (true, true, false)
  | .rdcyc => (true, false, false)
  | .vshl => (true, true, false)
  | .vsub => (true, true, false)
  | .reserved => (false, false, false)

/-- The bits of a response as they were seen on the output ports at one edge. -/
structure Recorded where
  r0 : Word
  r1 : Word
  flag : BitVec 1
  fcode : BitVec 3
  deriving DecidableEq, Repr

/-- Reading a recorded response of operation `op` (93_implementation_defined.md U7, U8): a reserved FCODE is
refused; the ports outside the defined set (R62) hold no value, whatever bits were on the wires. -/
def readRecorded (op : OpName) (w : Recorded) : Host.Outcome Response Fault Refusal :=
  match FCode.ofBits w.fcode with
  | none => .refused (.reservedFcode w.fcode)
  | some .noFault =>
    .next ⟨if (definedPorts op).1 then some w.r0 else none,
           if (definedPorts op).2.1 then some w.r1 else none,
           if (definedPorts op).2.2 then some w.flag else none, .noFault⟩
  | some code => .next (raiseFault code)

/-! ### Output pins (10_state.md R23, R25) -/

/-- An edge that carries nothing: no reset, no request, no `rsp_ready`; a transaction in flight is answered.
It stands for every edge after `lines` has run out (DESIGN CHOICE, log 1, log 2). -/
def Edge.quiet : Edge := ⟨false, none, true, false, .carryOn⟩

/-- What the next rising edge carries. -/
def State.edge (s : State) : Edge := s.lines.headD Edge.quiet

/-- `req_ready` at the next rising edge: 0 while `rst` = 1 (70_reset_and_hazards.md R124), and from the edge that
accepts a request until the edge that takes its response (10_state.md R25); else 1 (R126). DEDUCED, log 12. -/
def State.reqReady (s : State) : Bool := !s.edge.rst && decide (s.unit = .idle)

/-- `rsp_valid`: a response is presented (R23); 0 while `rst` = 1 (R124). -/
def State.rspValid (s : State) : Bool :=
  match s.unit with
  | .presented _ => !s.edge.rst
  | _ => false

/-- What an output port holds now: the values on R0, R1 and FLAG mean nothing while `rsp_valid` = 0 (R25). -/
def State.portValue (s : State) (p : Port) : Option Word :=
  match s.unit with
  | .presented rsp => if s.edge.rst then none else rsp.port p
  | _ => none

/-- What FCODE holds now. -/
def State.fcodeValue (s : State) : Option (BitVec 3) :=
  match s.unit with
  | .presented rsp => if s.edge.rst then none else some rsp.fcode.bits
  | _ => none

/-! ### What one rising edge does -/

/-- The edge is used up, and the draw that belongs to it. -/
def State.consumeEdge (s : State) : State := { s with lines := s.lines.tail, draws := s.draws + 1 }

/-- CNT after it grew by `n`: it never decreases and does not wrap within a reset epoch (10_state.md R32), so a draw
counts only as far as the largest 64-bit value (DESIGN CHOICE, log 4). -/
def growCnt (cnt : Word) (n : Nat) : Word := BitVec.ofNat 64 (min (cnt.toNat + n) (2 ^ 64 - 1))

/-- Time passes up to this edge: CNT grows by a free draw (10_state.md R32, 43_counter.md R97). -/
def State.advanceCnt (s : State) : State := { s with cnt := growCnt s.cnt (Config.cntAdvance s.inst s.draws) }

/-- The state a rising edge without reset works on: CNT has advanced and the edge is used up. -/
def State.runEdge (s : State) : State := s.advanceCnt.consumeEdge

/-- A rising edge with `rst` = 1 (70_reset_and_hazards.md R124, R125): whatever was in flight or presented is
discarded, CNT is set to CNT_RESET, and nothing is accepted or taken. The requester sees the reset. DEDUCED that reset
wins over a response taken at the same edge, log 13. -/
def State.resetEdge (s : State) : State :=
  { s.consumeEdge with
    cnt := Config.cntReset s.inst s.draws
    unit := .idle
    record := .wasReset :: s.record }

/-- A rising edge while KCORE is idle, `req_ready` = 1 (10_state.md R25): a request offered at it is accepted, its
five fields sampled together (20_memory.md R43). -/
def State.accept (s : State) : Option Offer → Host.Outcome State Fault Refusal
  | none => .next s
  | some o =>
    match resolveOffer s.record o with
    | .error f => .fault f
    | .ok req => .next { s with unit := .inFlight req, asked := ⟨o.tag, req⟩ }

/-- A rising edge while response `rsp` is presented (10_state.md R25): it is held unchanged until `rsp_ready` = 1
takes it. A fault response ends the step for a requester that stops on one (60_exceptions.md R114, R123), and changes
nothing for one that goes on (R111). -/
def State.take (s : State) (e : Edge) (rsp : Response) : Host.Outcome State Fault Refusal :=
  if e.rspReady then
    if rsp.fcode ≠ .noFault ∧ e.onFault = .stop then
      .fault (.faultResponse (decodeReq s.asked.req).name rsp.fcode)
    else
      .next { s with unit := .idle, record := .answered s.asked.tag s.asked.req rsp :: s.record }
  else
    .next s

/-- The state in which `req` has been accepted and the next rising edge answers it: what `State.withFetchWord`
places (log 11). -/
def State.withRequest (s : State) (req : Request) : State :=
  { s with unit := .inFlight req, asked := ⟨0, req⟩, lines := Edge.quiet :: s.lines }

end Sys2Proof.Machine
end

