-- ==== Sys2Proof/Machine/CarryBorrow.lean ====
section
/-! DEFINITION. ADC and SBB (40_carry_borrow.md). -/

namespace Sys2Proof.Machine

/-- ADC's response (R69, R72). -/
def adcResponse (a b c : Word) : Response :=
  if carryInRange c then
    flagged (bits64 (uint a + uint b + uint c)) (carryOut (uint a + uint b + uint c))
  else raiseFault .carryInRange

/-- ADC: A = a, B = b, C = carry_in; D is ignored (R69). -/
def execAdc (a b c _d : Word) (s : State) : Host.Outcome State Fault Refusal :=
  .next (s.present (adcResponse a b c))

/-- SBB's response (R73, R76). -/
def sbbResponse (a b c : Word) : Response :=
  if carryInRange c then
    flagged (bits64 (uint a - uint b - uint c)) (borrowOut (uint a - uint b - uint c))
  else raiseFault .carryInRange

/-- SBB: A = a, B = b, C = borrow_in; D is ignored (R73). -/
def execSbb (a b c _d : Word) (s : State) : Host.Outcome State Fault Refusal :=
  .next (s.present (sbbResponse a b c))

end Sys2Proof.Machine
end

