-- ==== Sys2Proof/Machine/Counter.lean ====
section
/-! DEFINITION. RDCYC (43_counter.md). -/

namespace Sys2Proof.Machine

/-- RDCYC: R0 is the value CNT holds at the moment the transaction reads it; it reads no operand and writes nothing
else (R93, R95). The moment is the edge that answers the request, after CNT's advance to that edge; R94 leaves it open
and no rule depends on it (log 4). -/
def execRdcyc (_a _b _c _d : Word) (s : State) : Host.Outcome State Fault Refusal :=
  .next (s.present (single s.cnt))

end Sys2Proof.Machine
end

