-- ==== Sys2Proof/Machine/Divide.lean ====
section
/-! DEFINITION. DIVU (42_divide.md). -/

namespace Sys2Proof.Machine

/-- The dividend n = uint(A) * 2^64 + uint(B) (R87). -/
def dividend (high low : Word) : Int := uint high * 2 ^ 64 + uint low

/-- DIVU's response (R87); the check for a zero divisor comes first (R89, 60_exceptions.md R112). -/
def divuResponse (high low divisor : Word) : Response :=
  if divisorNonzero divisor then
    if quotientFits high divisor then
      paired (bits64 (dividend high low / uint divisor)) (bits64 (dividend high low % uint divisor))
    else raiseFault .divideOverflow
  else raiseFault .divideByZero

/-- DIVU: A = high, B = low, C = divisor; D is ignored (R87). -/
def execDivu (a b c _d : Word) (s : State) : Host.Outcome State Fault Refusal :=
  .next (s.present (divuResponse a b c))

end Sys2Proof.Machine
end

