-- ==== Sys2Proof/Machine/LaneVector.lean ====
section
/-! DEFINITION. VSHL and VSUB (44_lane_vector.md). The two lanes do not interact. -/

namespace Sys2Proof.Machine

/-- One lane shifted left by n, the bits shifted out discarded (R99). -/
def shiftLane (lane : Word) (n : Nat) : Word := bits64 (uint lane * 2 ^ n)

/-- VSHL's response (R99, R101). -/
def vshlResponse (lane0 lane1 amount : Word) : Response :=
  if shiftInRange amount then paired (shiftLane lane0 amount.toNat) (shiftLane lane1 amount.toNat)
  else raiseFault .shiftRange

/-- VSHL: A = v.lane[0], B = v.lane[1], C = shift_amount; D is ignored (R99). -/
def execVshl (a b c _d : Word) (s : State) : Host.Outcome State Fault Refusal :=
  .next (s.present (vshlResponse a b c))

/-- One lane's wrap-around difference (R102). -/
def subLane (x y : Word) : Word := bits64 (uint x - uint y)

/-- VSUB's response (R102). -/
def vsubResponse (a0 a1 b0 b1 : Word) : Response := paired (subLane a0 b0) (subLane a1 b1)

/-- VSUB: A = a.lane[0], B = a.lane[1], C = b.lane[0], D = b.lane[1] (R102). -/
def execVsub (a b c d : Word) (s : State) : Host.Outcome State Fault Refusal :=
  .next (s.present (vsubResponse a b c d))

end Sys2Proof.Machine
end

