-- ==== Sys2Proof/Machine/Multiply.lean ====
section
/-! DEFINITION. MULU and MULS (41_multiply.md). -/

namespace Sys2Proof.Machine

/-- MULU's response: the exact unsigned product, low half on R0, high half on R1 (R78). -/
def muluResponse (a b : Word) : Response :=
  paired (bits64 (uint a * uint b)) (bits64 (uint a * uint b / 2 ^ 64))

/-- MULU: A = a, B = b; C and D are ignored (R78). -/
def execMulu (a b _c _d : Word) (s : State) : Host.Outcome State Fault Refusal :=
  .next (s.present (muluResponse a b))

/-- MULS's response: the halves of the 128-bit pattern of the exact signed product (R82). -/
def mulsResponse (a b : Word) : Response :=
  paired (lowHalf (bits128 (sint a * sint b))) (highHalf (bits128 (sint a * sint b)))

/-- MULS: A = a, B = b, both two's complement; C and D are ignored (R82). -/
def execMuls (a b _c _d : Word) (s : State) : Host.Outcome State Fault Refusal :=
  .next (s.present (mulsResponse a b))

end Sys2Proof.Machine
end

