-- ==== Sys2Proof/Machine/Reserved.lean ====
section
/-! DEFINITION. The reserved OP values (30_encoding.md R56). -/

namespace Sys2Proof.Machine

/-- A reserved OP: IllegalOp, FCODE 1, reading none of A, B, C and D (R56; 60_exceptions.md R106, R112). -/
def execReserved (_op : BitVec 4) (_a _b _c _d : Word) (s : State) : Host.Outcome State Fault Refusal :=
  .next (s.present (raiseFault .illegalOp))

end Sys2Proof.Machine
end

