-- ==== Sys2Proof/Machine/Dispatch.lean ====
section
/-! DEFINITION. The meaning of every operation: one arm for each constructor of `Instr`. -/

namespace Sys2Proof.Machine

def exec (i : Instr) (s : State) : Host.Outcome State Fault Refusal :=
  match i with
  | .adc a b c d => Sys2Proof.Machine.execAdc a b c d s
  | .sbb a b c d => Sys2Proof.Machine.execSbb a b c d s
  | .mulu a b c d => Sys2Proof.Machine.execMulu a b c d s
  | .muls a b c d => Sys2Proof.Machine.execMuls a b c d s
  | .divu a b c d => Sys2Proof.Machine.execDivu a b c d s
  | .rdcyc a b c d => Sys2Proof.Machine.execRdcyc a b c d s
  | .vshl a b c d => Sys2Proof.Machine.execVshl a b c d s
  | .vsub a b c d => Sys2Proof.Machine.execVsub a b c d s
  | .reserved op a b c d => Sys2Proof.Machine.execReserved op a b c d s

end Sys2Proof.Machine
end

