-- ==== Sys2Proof/Machine/Step.lean ====
section
/-! DEFINITION. One step: one rising edge of `clk` (10_state.md R25, 70_reset_and_hazards.md R124). -/

namespace Sys2Proof.Machine

/-- One rising edge. Reset wins over everything (R124). Otherwise CNT advances, and by what the instance is doing: idle,
it accepts an offered request; with a request in flight, it is decoded and runs as one atomic step (00_scope.md R16) at
the edge at which its latency is over; with a response presented, the response is held or taken (R25). -/
def step (s : State) : Host.Outcome State Fault Refusal :=
  if s.edge.rst then .next s.resetEdge
  else
    match s.unit with
    | .idle => s.runEdge.accept s.edge.req
    | .inFlight req => if s.edge.done then exec (decodeReq req) s.runEdge else .next s.runEdge
    | .presented rsp => s.runEdge.take s.edge rsp

/-- `s` with the request whose bits are the `nbits` low bits of `w` accepted, so that the very next step answers it
(log 11). -/
def State.withFetchWord (s : State) (nbits w : Nat) : State :=
  s.withRequest (Request.ofNat (w % 2 ^ nbits))

end Sys2Proof.Machine
end

