-- ==== Sys2Proof/Machine/Assembler.lean ====
section
/-! DEFINITION. The assembler syntax (30_encoding.md R63-R67): statements, operands, references, pseudo-instructions,
and the written form of a request. It is the requester's notation; the machine runs the offers it yields. What the rules
leave open of the text's shape is settled in log 15. -/

namespace Sys2Proof.Machine

/-- A mnemonic of the notation: the eight operations (R55) and the six pseudo-instructions (R66). -/
inductive Mnemonic where
  | adc | sbb | mulu | muls | divu | rdcyc | vshl | vsub
  | add | sub | neg | div64 | vneg | vmov
  deriving DecidableEq, Repr

/-- An operand of a statement (R64): a literal's 64-bit pattern or a reference `label.port`. -/
inductive AsmOperand where
  | lit (w : Word)
  | ref (label : List Char) (port : Port)
  deriving DecidableEq, Repr

/-- A statement `[label:] MNEMONIC operand, operand, …` (R63). -/
structure Statement where
  label : Option (List Char)
  mnemonic : Mnemonic
  operands : List AsmOperand
  deriving DecidableEq, Repr

/-- Why a text does not assemble. -/
inductive AsmError where
  /-- The word is no mnemonic of R63 or R66. -/
  | unknownMnemonic (word : List Char)
  /-- The mnemonic takes another number of operands (R63, R66). -/
  | operandCount (m : Mnemonic) (given : Nat)
  /-- A literal outside the ranges of R64. -/
  | literalOutOfRange (text : List Char)
  /-- The text is neither a literal nor a reference (R64). -/
  | notAnOperand (text : List Char)
  /-- The text before the colon is no label. -/
  | badLabel (text : List Char)
  /-- A reference to a label that no earlier statement has (R64). -/
  | unknownLabel (label : List Char)
  /-- A reference to an output that the labelled transaction does not define (R64, R62). -/
  | undefinedOutput (label : List Char) (port : Port)
  deriving DecidableEq, Repr

/-! ### Statements to requests -/

/-- How many operands a mnemonic takes (R63; R66's pseudo-instructions as their forms show). -/
def Mnemonic.arity : Mnemonic → Nat
  | .adc => 3
  | .sbb => 3
  | .mulu => 2
  | .muls => 2
  | .divu => 3
  | .rdcyc => 0
  | .vshl => 3
  | .vsub => 4
  | .add => 2
  | .sub => 2
  | .neg => 1
  | .div64 => 2
  | .vneg => 2
  | .vmov => 2

/-- The operation a statement requests (R55, R66). -/
def Mnemonic.opName : Mnemonic → OpName
  | .adc => .adc
  | .sbb => .sbb
  | .mulu => .mulu
  | .muls => .muls
  | .divu => .divu
  | .rdcyc => .rdcyc
  | .vshl => .vshl
  | .vsub => .vsub
  | .add => .adc
  | .sub => .sbb
  | .neg => .sbb
  | .div64 => .divu
  | .vneg => .vsub
  | .vmov => .vshl

/-- The OP value of an operation of R55 (the reserved space has no mnemonic; its lowest value stands here). -/
def opValueOf : OpName → BitVec 4
  | .adc => 0#4
  | .sbb => 1#4
  | .mulu => 2#4
  | .muls => 3#4
  | .divu => 4#4
  | .rdcyc => 5#4
  | .vshl => 6#4
  | .vsub => 7#4
  | .reserved => 8#4

/-- The operands a pseudo-instruction's expansion gives its request (R66); the eight operations keep theirs. -/
def expandOperands (zero : α) : Mnemonic → List α → List α
  | .add, ops => ops ++ [zero]
  | .sub, ops => ops ++ [zero]
  | .neg, ops => zero :: (ops ++ [zero])
  | .div64, ops => zero :: ops
  | .vneg, ops => zero :: zero :: ops
  | .vmov, ops => ops ++ [zero]
  | .adc, ops => ops
  | .sbb, ops => ops
  | .mulu, ops => ops
  | .muls, ops => ops
  | .divu, ops => ops
  | .rdcyc, ops => ops
  | .vshl, ops => ops
  | .vsub, ops => ops

/-- The request of a mnemonic with literal operands in port order A, B, C, D; ports beyond the count are sent as 0
(R63). `none` if the count is wrong. -/
def requestOf (m : Mnemonic) (ops : List Word) : Option Request :=
  if ops.length = m.arity then
    let xs := expandOperands 0#64 m ops
    some ⟨opValueOf m.opName, xs.getD 0 0#64, xs.getD 1 0#64, xs.getD 2 0#64, xs.getD 3 0#64⟩
  else none

/-- Whether an operation's successful response defines a port (R62). -/
def definesPort (op : OpName) : Port → Bool
  | .r0 => (definedPorts op).1
  | .r1 => (definedPorts op).2.1
  | .flag => (definedPorts op).2.2

/-- An earlier statement as a reference sees it: its label, the tag of its transaction, its operation. -/
structure Earlier where
  label : List Char
  tag : Nat
  op : OpName
  deriving DecidableEq, Repr

/-- The newest earlier statement with a label (`earlier` is newest first). -/
def findLabel (label : List Char) : List Earlier → Option Earlier
  | [] => none
  | e :: es => if e.label = label then some e else findLabel label es

/-- An operand's source (R64). A reference to a fault response, which R64 calls an assembly error, cannot be seen before
the program runs; the machine raises `Fault.portHoldsNoValue` there. DESIGN CHOICE, log 15. -/
def AsmOperand.source (earlier : List Earlier) : AsmOperand → Except AsmError Source
  | .lit w => .ok (.lit w)
  | .ref label p =>
    match findLabel label earlier with
    | none => .error (.unknownLabel label)
    | some e => if definesPort e.op p then .ok (.out e.tag p) else .error (.undefinedOutput label p)

/-- The sources of a list of operands. -/
def sourcesOf (earlier : List Earlier) : List AsmOperand → Except AsmError (List Source)
  | [] => .ok []
  | o :: os =>
    match o.source earlier with
    | .error e => .error e
    | .ok x =>
      match sourcesOf earlier os with
      | .error e => .error e
      | .ok xs => .ok (x :: xs)

/-- The offer of one statement under a tag (R63, R66: exactly one request). -/
def Statement.offer (earlier : List Earlier) (tag : Nat) (st : Statement) : Except AsmError Offer :=
  if st.operands.length = st.mnemonic.arity then
    match sourcesOf earlier st.operands with
    | .error e => .error e
    | .ok srcs =>
      let xs := expandOperands (Source.lit 0#64) st.mnemonic srcs
      .ok { tag := tag, op := opValueOf st.mnemonic.opName
            a := xs.getD 0 (.lit 0#64), b := xs.getD 1 (.lit 0#64)
            c := xs.getD 2 (.lit 0#64), d := xs.getD 3 (.lit 0#64) }
  else .error (.operandCount st.mnemonic st.operands.length)

/-- The offers of a program, its statements tagged from `tag` on. -/
def assembleFrom (earlier : List Earlier) (tag : Nat) : List Statement → Except AsmError (List Offer)
  | [] => .ok []
  | st :: rest =>
    match st.offer earlier tag with
    | .error e => .error e
    | .ok o =>
      let earlier' := match st.label with
        | none => earlier
        | some l => ⟨l, tag, st.mnemonic.opName⟩ :: earlier
      match assembleFrom earlier' (tag + 1) rest with
      | .error e => .error e
      | .ok os => .ok (o :: os)

/-- The offers of a program. -/
def assemble (prog : List Statement) : Except AsmError (List Offer) := assembleFrom [] 0 prog

/-- The edges of a requester that issues its offers one after another, each after the earlier response was taken
(70_reset_and_hazards.md R128): for each offer one edge that accepts it, one that answers it, one that takes it. -/
def edgesOf (policy : FaultPolicy) : List Offer → List Edge
  | [] => []
  | o :: os =>
    ⟨false, some o, false, false, policy⟩ :: ⟨false, none, true, false, policy⟩ ::
      ⟨false, none, false, true, policy⟩ :: edgesOf policy os

/-! ### Text to statements -/

/-- A blank of the text: a space or a tab. -/
def isBlank (c : Char) : Bool := c == ' ' || c == '\t'

/-- The text without blanks at its ends. -/
def trim (cs : List Char) : List Char := ((cs.dropWhile isBlank).reverse.dropWhile isBlank).reverse

/-- The parts of a text between the characters `sep`. -/
def splitAtChar (sep : Char) : List Char → List (List Char)
  | [] => [[]]
  | c :: cs =>
    if c = sep then [] :: splitAtChar sep cs
    else
      match splitAtChar sep cs with
      | [] => [[c]]
      | p :: ps => (c :: p) :: ps

/-- The value of a digit: 0-9, a-f, A-F. -/
def digitValue (c : Char) : Option Nat :=
  let n := c.toNat
  if 48 ≤ n ∧ n ≤ 57 then some (n - 48)
  else if 65 ≤ n ∧ n ≤ 70 then some (n - 55)
  else if 97 ≤ n ∧ n ≤ 102 then some (n - 87)
  else none

/-- The value of a text of digits of a base, most significant first; `none` if a character is no digit of it. -/
def digitsValue (base : Nat) (acc : Nat) : List Char → Option Nat
  | [] => some acc
  | c :: cs =>
    match digitValue c with
    | none => none
    | some v => if v < base then digitsValue base (acc * base + v) cs else none

/-- The text as a number: at least one digit. -/
def parseNumber (base : Nat) (cs : List Char) : Option Nat :=
  if cs.isEmpty then none else digitsValue base 0 cs

/-- An output port's name (R64). -/
def parsePort (cs : List Char) : Option Port :=
  if cs = ['R', '0'] then some .r0
  else if cs = ['R', '1'] then some .r1
  else if cs = ['F', 'L', 'A', 'G'] then some .flag
  else none

/-- A literal (R64): `0x` and at most 16 hex digits, an unsigned decimal below 2^64, or `-n` with 1 ≤ n ≤ 2^63. -/
def parseLiteral (cs : List Char) : Except AsmError AsmOperand :=
  match cs with
  | '0' :: 'x' :: hs =>
    match parseNumber 16 hs with
    | none => .error (.notAnOperand cs)
    | some v => if hs.length ≤ 16 then .ok (.lit (bits64 v)) else .error (.literalOutOfRange cs)
  | '-' :: ds =>
    match parseNumber 10 ds with
    | none => .error (.notAnOperand cs)
    | some v => if 1 ≤ v ∧ v ≤ 2 ^ 63 then .ok (.lit (bits64 (-(v : Int)))) else .error (.literalOutOfRange cs)
  | _ =>
    match parseNumber 10 cs with
    | none => .error (.notAnOperand cs)
    | some v => if v < 2 ^ 64 then .ok (.lit (bits64 v)) else .error (.literalOutOfRange cs)

/-- An operand (R64): with a dot it is a reference `label.port`, else a literal. -/
def parseOperand (cs : List Char) : Except AsmError AsmOperand :=
  match splitAtChar '.' cs with
  | [label, port] =>
    match parsePort port with
    | some p => if label.isEmpty then .error (.notAnOperand cs) else .ok (.ref label p)
    | none => .error (.notAnOperand cs)
  | _ => parseLiteral cs

/-- The operands of a list of texts. -/
def parseOperands : List (List Char) → Except AsmError (List AsmOperand)
  | [] => .ok []
  | t :: ts =>
    match parseOperand (trim t) with
    | .error e => .error e
    | .ok o =>
      match parseOperands ts with
      | .error e => .error e
      | .ok os => .ok (o :: os)

/-- The mnemonics as the notation writes them (R55, R66). -/
def mnemonicNames : List (List Char × Mnemonic) :=
  [ (['A','D','C'], .adc), (['S','B','B'], .sbb), (['M','U','L','U'], .mulu), (['M','U','L','S'], .muls),
    (['D','I','V','U'], .divu), (['R','D','C','Y','C'], .rdcyc), (['V','S','H','L'], .vshl),
    (['V','S','U','B'], .vsub), (['A','D','D'], .add), (['S','U','B'], .sub), (['N','E','G'], .neg),
    (['D','I','V','6','4'], .div64), (['V','N','E','G'], .vneg), (['V','M','O','V'], .vmov) ]

/-- A letter's capital; every other character is itself. -/
def capital (c : Char) : Char := if 97 ≤ c.toNat ∧ c.toNat ≤ 122 then Char.ofNat (c.toNat - 32) else c

/-- The mnemonic a word names, in capitals or not (R63: mnemonics are case-insensitive). -/
def parseMnemonic (cs : List Char) : Option Mnemonic :=
  (mnemonicNames.find? (fun row => row.1 == cs.map capital)).map Prod.snd

/-- `MNEMONIC operand, operand, …` (R63). -/
def parseBody (label : Option (List Char)) (cs : List Char) : Except AsmError Statement :=
  let word := cs.takeWhile (fun c => !isBlank c)
  let rest := trim (cs.dropWhile (fun c => !isBlank c))
  match parseMnemonic word with
  | none => .error (.unknownMnemonic word)
  | some m =>
    match (if rest.isEmpty then .ok [] else parseOperands (splitAtChar ',' rest)) with
    | .error e => .error e
    | .ok ops => if ops.length = m.arity then .ok ⟨label, m, ops⟩ else .error (.operandCount m ops.length)

/-- One line of text (R63): `;` starts a comment; `none` for a line that holds no statement. -/
def parseLine (line : List Char) : Except AsmError (Option Statement) :=
  let cs := trim (line.takeWhile (fun c => c != ';'))
  if cs.isEmpty then .ok none
  else
    match splitAtChar ':' cs with
    | [body] => (parseBody none body).map some
    | [label, body] =>
      let l := trim label
      if l.isEmpty || l.any (fun c => isBlank c || c == '.' || c == ',') then .error (.badLabel l)
      else (parseBody (some l) (trim body)).map some
    | _ => .error (.badLabel cs)

/-- A text, line by line. -/
def parseLines : List (List Char) → Except AsmError (List Statement)
  | [] => .ok []
  | l :: ls =>
    match parseLine l with
    | .error e => .error e
    | .ok st =>
      match parseLines ls with
      | .error e => .error e
      | .ok sts => .ok (st.toList ++ sts)

/-! ### The written form of a request (R65) -/

/-- A hex digit in capitals. -/
def hexDigit (n : Nat) : Char := if n < 10 then Char.ofNat (48 + n) else Char.ofNat (55 + n)

/-- `0x` and the low `digits` hex digits of a number. -/
def hexText (digits n : Nat) : List Char :=
  '0' :: 'x' :: ((List.range digits).reverse.map (fun k => hexDigit (n / 16 ^ k % 16)))

/-- `OP=0xN A=0x… B=0x… C=0x… D=0x…`, all 64-bit operands in hexadecimal (R65). -/
def requestText (r : Request) : List Char :=
  ['O','P','='] ++ hexText 1 r.op.toNat ++ [' ','A','='] ++ hexText 16 r.a.toNat ++ [' ','B','='] ++
    hexText 16 r.b.toNat ++ [' ','C','='] ++ hexText 16 r.c.toNat ++ [' ','D','='] ++ hexText 16 r.d.toNat

end Sys2Proof.Machine
end

