-- ==== Sys2Proof/Machine/Reference.lean ====
section
/-! DEFINITION. The listings the spec gives beside the contracts, each called a correct realization of its operation
(00_scope.md R4; 40_carry_borrow.md R70, R74; 41_multiply.md R79, R84; 44_lane_vector.md R104). The operations' meanings
are the contracts (R12) and do not use them; that they agree is stated as obligations. -/

namespace Sys2Proof.Machine

/-- ADC's two-stage algorithm (40_carry_borrow.md R70): R0 and FLAG. -/
def adcTwoStage (a b c : Word) : Word × Bool :=
  let sum1 := bits64 (uint a + uint b)
  let c1 := decide (uint sum1 < uint a)
  let sum2 := bits64 (uint sum1 + uint c)
  let c2 := decide (uint sum2 < uint c)
  (sum2, c1 || c2)

/-- SBB's two-stage algorithm (40_carry_borrow.md R74): R0 and FLAG. -/
def sbbTwoStage (a b c : Word) : Word × Bool :=
  let diff := bits64 (uint a - uint b)
  let b1 := decide (uint a < uint b)
  let diff2 := bits64 (uint diff - uint c)
  let b2 := decide (uint diff < uint c)
  (diff2, b1 || b2)

/-- x[31:0] as a 64-bit word. -/
def lowLimb (x : Word) : Word := x &&& 0xFFFFFFFF#64

/-- x[63:32] as a 64-bit word. -/
def highLimb (x : Word) : Word := x >>> 32

/-- The limb algorithm's words (41_multiply.md R79, with `mid2` as 90_conflicts.md C2 corrects it), all in 64-bit
unsigned arithmetic. -/
structure Limbs where
  ll : Word
  hl : Word
  lh : Word
  hh : Word
  mid1 : Word
  mid2 : Word
  low : Word
  high : Word
  deriving DecidableEq, Repr

/-- The limb algorithm (R79). -/
def muluLimbs (a b : Word) : Limbs :=
  let ll := lowLimb a * lowLimb b
  let hl := highLimb a * lowLimb b
  let lh := lowLimb a * highLimb b
  let hh := highLimb a * highLimb b
  let mid1 := hl + (ll >>> 32)
  let mid2 := lh + (mid1 &&& 0xFFFFFFFF#64)
  { ll := ll, hl := hl, lh := lh, hh := hh, mid1 := mid1, mid2 := mid2
    low := (mid2 <<< 32) ||| (ll &&& 0xFFFFFFFF#64)
    high := hh + (mid1 >>> 32) + (mid2 >>> 32) }

/-- MULS's high half from MULU's (41_multiply.md R84). -/
def mulsHighFrom (a b muluHigh : Word) : Word :=
  bits64 (uint muluHigh - (if a.getLsbD 63 then uint b else 0) - (if b.getLsbD 63 then uint a else 0))

/-- The exact value of a multi-word number, least significant word first (R68, R77). -/
def wordsValue : List Word → Nat
  | [] => 0
  | w :: ws => w.toNat + 2 ^ 64 * wordsValue ws

end Sys2Proof.Machine
end

