-- ==== Sys2Proof/Machine/Chain.lean ====
section
/-! DEFINITION. What one operation answers, and chains of operations that pass FLAG on (30_encoding.md R68,
40_carry_borrow.md R77). -/

namespace Sys2Proof.Machine

/-- The response that `i` presents when it runs at `s` (00_scope.md R16: one atomic step from the operand values to the
response). -/
def answerAt (s : State) (i : Instr) : Option Response :=
  match exec i s with
  | .next t =>
    match t.unit with
    | .presented rsp => some rsp
    | _ => none
  | _ => none

/-- A chain over the words of two numbers, least significant first: each transaction's FLAG is the next one's C
operand (R68). Answers the result words and the last FLAG as a word; `none` if a response lacks R0 or FLAG. -/
def chain (s : State) (op : Word → Word → Word → Instr) (flag : Word) : List (Word × Word) → Option (List Word × Word)
  | [] => some ([], flag)
  | (x, y) :: rest =>
    match answerAt s (op x y flag) with
    | none => none
    | some rsp =>
      match rsp.port .r0, rsp.port .flag with
      | some r, some f => (chain s op f rest).map (fun out => (r :: out.1, out.2))
      | _, _ => none

/-- The multi-word sum of R77: a chain of ADC from carry-in 0. -/
def adcChain (s : State) (words : List (Word × Word)) : Option (List Word × Word) :=
  chain s (fun x y k => .adc x y k 0#64) 0#64 words

/-- The multi-word difference of R77: a chain of SBB from borrow-in 0. -/
def sbbChain (s : State) (words : List (Word × Word)) : Option (List Word × Word) :=
  chain s (fun x y k => .sbb x y k 0#64) 0#64 words

end Sys2Proof.Machine
end

