-- ==== Sys2Proof/Machine/Instances.lean ====
section
/-! DEFINITION. The KCORE instances of a system, one for each requester (00_scope.md R11, 10_state.md R38,
60_exceptions.md R120). -/

namespace Sys2Proof.Machine

/-- The instances of a system, numbered from 0: at least one, since N_INST ≥ 1 (R11). The numbers are the model's:
instances have no identifiers visible through KCORE (R120). -/
structure Instances where
  first : State
  others : List State
  deriving DecidableEq, Repr

/-- N_INST (R11). -/
def Instances.count (sys : Instances) : Nat := sys.others.length + 1

/-- The instance numbered `k`, if there is one. -/
def Instances.at? (sys : Instances) : Nat → Option State
  | 0 => some sys.first
  | k + 1 => sys.others[k]?

/-- The system with the instance numbered `k` replaced. -/
def Instances.put (sys : Instances) (t : State) : Nat → Instances
  | 0 => { sys with first := t }
  | k + 1 => { sys with others := sys.others.set k t }

/-- A system right after reset, with `n` instances beside the first; each reads free draws of its own, so that nothing
relates two counters (R38). -/
def Instances.reset (n : Nat) : Instances where
  first := State.resetOf 0
  others := (List.range n).map (fun k => State.resetOf (k + 1))

/-- A rising edge at instance `k` alone. No order is defined between steps of different instances (20_memory.md R46):
a run of the system is any sequence of such steps (log 14).
DESIGN CHOICE (log 14): where the step of instance `k` ends in a fault (its requester stops on a fault response,
or offers a request whose operand cannot be read), the step of the whole system ends in that fault, named with `k`, and
has no next state for any instance. The spec gives the fault outcome of one step (R123) and is silent on a system's. -/
def Instances.stepAt (sys : Instances) (k : Nat) : Host.Outcome Instances (Nat × Fault) Refusal :=
  match sys.at? k with
  | none => .refused (.noInstance k)
  | some s =>
    match step s with
    | .next t => .next (sys.put t k)
    | .fault f => .fault (k, f)
    | .refused r => .refused r

end Sys2Proof.Machine
end

