-- ==== Sys2Proof/Safety.lean ====
section
/-! DEFINITION. What counts as a safe request, a legal response and a consistent state, in the terms the statements
use. -/

namespace Sys2Proof.Machine

/-- The domain of an operation (00_scope.md R18, 30_encoding.md R60): the operand values for which it defines a
numeric result. A reserved OP has none. -/
def inDomain : Instr → Prop
  | .adc _ _ c _ => uint c = 0 ∨ uint c = 1
  | .sbb _ _ c _ => uint c = 0 ∨ uint c = 1
  | .mulu _ _ _ _ => True
  | .muls _ _ _ _ => True
  | .divu a _ c _ => uint c ≠ 0 ∧ uint a < uint c
  | .rdcyc _ _ _ _ => True
  | .vshl _ _ c _ => uint c ≤ 63
  | .vsub _ _ _ _ => True
  | .reserved _ _ _ _ _ => False

/-- The fault codes an operation can raise (60_exceptions.md R105). -/
def faultCodes : OpName → List FCode
  | .adc => [.carryInRange]
  | .sbb => [.carryInRange]
  | .mulu => []
  | .muls => []
  | .divu => [.divideByZero, .divideOverflow]
  | .rdcyc => []
  | .vshl => [.shiftRange]
  | .vsub => []
  | .reserved => [.illegalOp]

/-- Which of R0, R1 and FLAG hold a value. -/
def Response.mask (rsp : Response) : Bool × Bool × Bool := (rsp.r0.isSome, rsp.r1.isSome, rsp.flag.isSome)

/-- A response that R62 and R105 allow for an operation: without a fault exactly its defined outputs, with one no
output and one of its own codes. -/
def Response.LegalFor (op : OpName) (rsp : Response) : Prop :=
  (rsp.fcode = .noFault ∧ op ≠ .reserved ∧ rsp.mask = definedPorts op) ∨
    (rsp.fcode ∈ faultCodes op ∧ rsp.mask = (false, false, false))

/-- Some run of the operation that `req` names gives this response (10_state.md R39: every operation but RDCYC gives
one response only). -/
def AnsweredAs (req : Request) (rsp : Response) : Prop :=
  ∃ s : State, exec (decodeReq req) s = .next (s.present rsp)

/-- The requester's note is about the transaction that is under way, and every response presented or recorded is one
that its operation gives. -/
def State.Consistent (s : State) : Prop :=
  (∀ req, s.unit = .inFlight req → s.asked.req = req) ∧
  (∀ rsp, s.unit = .presented rsp → AnsweredAs s.asked.req rsp) ∧
  (∀ tag req rsp, .answered tag req rsp ∈ s.record → AnsweredAs req rsp)

/-- `rsp` is the newest response in the record that was taken under `tag` (the record is newest first, log 8). -/
def LatestTaken (record : List Entry) (tag : Nat) (rsp : Response) : Prop :=
  ∃ (newer : List Entry) (req : Request) (older : List Entry),
    record = newer ++ .answered tag req rsp :: older ∧ ∀ req' rsp', .answered tag req' rsp' ∉ newer

/-- The word a response holds on a port; FLAG is zero-extended to 64 bits (30_encoding.md R64). -/
def Response.Holds (rsp : Response) : Port → Word → Prop
  | .r0, w => rsp.r0 = some w
  | .r1, w => rsp.r1 = some w
  | .flag, w => ∃ f, rsp.flag = some f ∧ w.toNat = f.toNat

/-- The word an operand's source stands for (30_encoding.md R64, R68): a literal for its own pattern, a reference for
what the response taken under its tag holds on its port. -/
def StandsFor (record : List Entry) : Source → Word → Prop
  | .lit v, w => w = v
  | .out tag p, w => ∃ rsp, LatestTaken record tag rsp ∧ rsp.Holds p w

/-- An offer's request, field by field: OP as offered, and each operand word from its own source (10_state.md R25,
20_memory.md R43, 30_encoding.md R53). -/
def Carries (record : List Entry) (o : Offer) (req : Request) : Prop :=
  req.op = o.op ∧ StandsFor record o.a req.a ∧ StandsFor record o.b req.b ∧
    StandsFor record o.c req.c ∧ StandsFor record o.d req.d

/-- The labelled statements of a program, newest first, each under its place in the program as its tag. -/
def earlierOf (prog : List Statement) : List Earlier :=
  (prog.zipIdx.filterMap (fun x => x.1.label.map (fun l => ⟨l, x.2, x.1.mnemonic.opName⟩))).reverse

/-- Whether a request is an RDCYC. -/
def isRdcyc (req : Request) : Bool := decide ((decodeReq req).name = .rdcyc)

/-- The values the requester has read from CNT since the last reset, newest first. -/
def rdcycValues : List Entry → List Word
  | [] => []
  | .wasReset :: _ => []
  | .answered _ req rsp :: es => (if isRdcyc req then rsp.r0.toList else []) ++ rdcycValues es

/-- The value of a presented RDCYC response that is not taken yet. -/
def State.presentedCount (s : State) : List Word :=
  match s.unit with
  | .presented rsp => if isRdcyc s.asked.req then rsp.r0.toList else []
  | _ => []

/-- 10_state.md R32 as an invariant: the values RDCYC has returned since the last reset, newest first, do not
increase, and none exceeds CNT. -/
def State.CountsOrdered (s : State) : Prop :=
  (∀ req, s.unit = .inFlight req → s.asked.req = req) ∧
  List.Pairwise (fun newer older => older.toNat ≤ newer.toNat) (s.presentedCount ++ rdcycValues s.record) ∧
  (∀ v ∈ s.presentedCount ++ rdcycValues s.record, v.toNat ≤ s.cnt.toNat)

/-- `k` steps lead from `s` to `t`, none of them stopping. -/
def State.Reaches (s : State) (k : Nat) (t : State) : Prop := Host.Core.run core k s = .next t

/-- No edge to come carries a reset. -/
def State.noReset (s : State) : Prop := ∀ e ∈ s.lines, e.rst = false

end Sys2Proof.Machine
end

