-- ==== Sys2Proof/Certificates/Slice0/Obligations.lean ====
section
/-! DEFINITION. The statements for the provers. Where a statement speaks of an instruction's result, its conclusion is
the next state `exec` answers, with every field but `unit` as it was: that is its frame (KCORE has no memory,
20_memory.md R40, and no register but CNT, 10_state.md R34). -/

open Sys2Proof Sys2Proof.Machine

/-! ### Encoding -/

/-- Decoding the word of any well-formed command gives the command back, every operand port included. -/
def Obligations.DecodeAfterEncodeGivesTheCommand : Prop :=
  ∀ i : Instr, i.wellFormed = true → decode (encode i) = i

/-- Every request word decodes to a well-formed command (R57: decoding is total) whose word is that word again: no bit
of a request is dropped. -/
def Obligations.EncodeAfterDecodeGivesTheRequest : Prop :=
  ∀ w : ReqBits, (decode w).wellFormed = true ∧ encode (decode w) = w

/-- 30_encoding.md R55, R56, R57: the operation each of the sixteen OP values selects, with the four ports as its
operand words. -/
def Obligations.EveryOpValueSelectsItsOperation : Prop :=
  ∀ a b c d : Word,
    decodeReq ⟨0x0#4, a, b, c, d⟩ = .adc a b c d ∧ decodeReq ⟨0x1#4, a, b, c, d⟩ = .sbb a b c d ∧
    decodeReq ⟨0x2#4, a, b, c, d⟩ = .mulu a b c d ∧ decodeReq ⟨0x3#4, a, b, c, d⟩ = .muls a b c d ∧
    decodeReq ⟨0x4#4, a, b, c, d⟩ = .divu a b c d ∧ decodeReq ⟨0x5#4, a, b, c, d⟩ = .rdcyc a b c d ∧
    decodeReq ⟨0x6#4, a, b, c, d⟩ = .vshl a b c d ∧ decodeReq ⟨0x7#4, a, b, c, d⟩ = .vsub a b c d ∧
    ∀ op : BitVec 4, 8 ≤ op.toNat → decodeReq ⟨op, a, b, c, d⟩ = .reserved op a b c d

/-- The rows of opcode_table.json do not overlap and cover every OP value: exactly one row covers an OP, and it names
the operation the decoder selects, whatever the operands (30_encoding.md R53, R55, R57). -/
def Obligations.OneTableRowCoversEachOp : Prop :=
  ∀ (op : BitVec 4) (a b c d : Word), ∃ row, opcodeTable.filter (fun r => r.covers op) = [row] ∧
    row.name = (decodeReq ⟨op, a, b, c, d⟩).name

/-- A few request words written out in the model's numbering (log 10) decode to the commands they stand for. -/
def Obligations.WrittenOutWordsDecode : Prop :=
  decodeTableWord 8 0x00 = some (.adc 0#64 0#64 0#64 0#64) ∧
  decodeTableWord 8 0x04 = some (.divu 0#64 0#64 0#64 0#64) ∧
  decodeTableWord 8 0x05 = some (.rdcyc 0#64 0#64 0#64 0#64) ∧
  decodeTableWord 8 0x08 = some (.reserved 8#4 0#64 0#64 0#64 0#64) ∧
  decodeWire 0x40000000000000003000000000000000200000000000000017 =
    .ok (.vsub 1#64 2#64 3#64 4#64) ∧
  decodeWire (2 ^ 260) = .error .beyondRequest

/-! ### The step and the handshake -/

/-- At an edge without reset at which the request in flight gets its response, the step is the meaning of the decoded
operation; around it the edge is used up and CNT has advanced by its draw, and nothing else changes. -/
def Obligations.StepRunsTheRequestInFlight : Prop :=
  ∀ (s : State) (req : Request) (i : Instr),
    s.unit = .inFlight req → s.edge.rst = false → s.edge.done = true → decodeReq req = i →
    step s = exec i s.runEdge ∧
    s.runEdge = { s with cnt := growCnt s.cnt (Config.cntAdvance s.inst s.draws), lines := s.lines.tail,
                         draws := s.draws + 1 }

/-- The word the host places is what the next step runs: the decoder's instruction of a table word is executed by the
very next step. -/
def Obligations.PlacedWordIsRunByTheNextStep : Prop :=
  ∀ (s : State) (nbits w : Nat) (i : Instr), decodeTableWord nbits w = some i →
    step (s.withFetchWord nbits w) = exec i (s.withFetchWord nbits w).runEdge

/-- 10_state.md R25, acceptance: an idle instance without reset stays idle if no request is offered at the edge; a
request that is offered is accepted with all five fields together (20_memory.md R43): OP as offered, and each operand
word from its own source in its own port's position, a literal's pattern or the value the referenced response holds on
its port, FLAG zero-extended (30_encoding.md R64, R68). Reading an offer gives nothing but the request it carries. (The
tag, the note and the record are the model's own, log 8; an operand that cannot be read is in
ReadingAPortWithoutValueFaults and ReferenceToAnUntakenResponseFaults.) -/
def Obligations.IdleEdgeAcceptsWhatIsOffered : Prop :=
  ∀ s : State, s.unit = .idle → s.edge.rst = false →
    (s.edge.req = none → step s = .next s.runEdge) ∧
    ∀ (o : Offer) (req : Request), s.edge.req = some o →
      (resolveOffer s.record o = .ok req ↔ Carries s.record o req) ∧
      (Carries s.record o req → step s = .next { s.runEdge with unit := .inFlight req, asked := ⟨o.tag, req⟩ })

/-- 10_state.md R25: a request that is in flight after an edge was in flight before it, or was accepted at it, with
`rst` = 0, `req_valid` = 1 and `req_ready` = 1. -/
def Obligations.AcceptanceNeedsValidAndReady : Prop :=
  ∀ (s t : State) (req : Request), step s = .next t → t.unit = .inFlight req →
    s.unit = .inFlight req ∨
    (s.edge.rst = false ∧ s.reqReady = true ∧ ∃ o, s.edge.req = some o ∧ resolveOffer s.record o = .ok req)

/-- 10_state.md R25: at an edge without reset, a presented response is held unchanged until `rsp_ready` = 1, which
takes it: the requester then has exactly it, once, and the instance is idle. (A requester that stops on a fault
response is in TakingAFaultResponse.) -/
def Obligations.ResponseIsHeldUntilTaken : Prop :=
  ∀ (s : State) (rsp : Response), s.unit = .presented rsp → s.edge.rst = false →
    (s.edge.rspReady = false → step s = .next s.runEdge ∧ s.runEdge.unit = .presented rsp) ∧
    (s.edge.rspReady = true → (rsp.fcode = .noFault ∨ s.edge.onFault = .carryOn) →
      step s = .next { s.runEdge with unit := .idle,
                                      record := .answered s.asked.tag s.asked.req rsp :: s.record })

/-- 10_state.md R25: a response is never lost or reordered: the record only grows at its newest end, by the response
that was presented or by the mark of a reset, and a presented response leaves only in these ways. The reset clause is
70_reset_and_hazards.md R124's; the model's choice, not the rule's: that a response ready to be taken at a reset edge is
discarded too (log 13), and the mark in the record (log 8). -/
def Obligations.ResponsesAreNeverLostOrReordered : Prop :=
  ∀ s t : State, step s = .next t →
    (t.record = s.record ∧ ∀ rsp, s.unit = .presented rsp → t.unit = .presented rsp) ∨
    (s.edge.rst = true ∧ t.record = .wasReset :: s.record) ∨
    (∃ rsp, s.unit = .presented rsp ∧ s.edge.rspReady = true ∧ t.unit = .idle ∧
      t.record = .answered s.asked.tag s.asked.req rsp :: s.record)

/-- 10_state.md R25: `req_ready` = 0 from the edge that accepts a request until the edge that takes its response (or a
reset): if an instance that was not idle is ready after an edge, then that edge took its response or reset it. -/
def Obligations.NotReadyUntilTheResponseIsTaken : Prop :=
  ∀ s t : State, step s = .next t → s.unit ≠ .idle → t.reqReady = true →
    s.edge.rst = true ∨ (∃ rsp, s.unit = .presented rsp ∧ s.edge.rspReady = true)

/-- 10_state.md R25, R27: the result ports and FCODE mean something only while `rsp_valid` = 1: without it they hold no
value, with it FCODE always holds one and the ports hold what the presented response defines. -/
def Obligations.OutputsHoldValuesOnlyWhileValid : Prop :=
  ∀ s : State,
    (s.rspValid = false → (∀ p, s.portValue p = none) ∧ s.fcodeValue = none) ∧
    (s.rspValid = true → ∃ rsp, s.unit = .presented rsp ∧ s.fcodeValue = some rsp.fcode.bits ∧
      s.portValue .r0 = rsp.r0 ∧ s.portValue .r1 = rsp.r1 ∧
      s.portValue .flag = rsp.flag.map (BitVec.setWidth 64))

/-! ### Reset and the counter -/

/-- 70_reset_and_hazards.md R124: an edge with `rst` = 1 discards what is in flight or presented (no response is ever
given for it: the record gains only the mark of the reset), sets CNT to CNT_RESET, drives `req_ready` = 0 and
`rsp_valid` = 0, and accepts nothing that is offered at it. The model's choice, not the rule's: that a response ready to
be taken at this edge is discarded too (log 13), the mark in the record (log 8), and one draw of CNT_RESET for each
reset (log 3). -/
def Obligations.ResetEdgeDiscardsAndSetsCnt : Prop :=
  ∀ s : State, s.edge.rst = true →
    s.reqReady = false ∧ s.rspValid = false ∧
    ∃ t, step s = .next t ∧ t.unit = .idle ∧ t.rspValid = false ∧ t.cnt = Config.cntReset s.inst s.draws ∧
      t.record = .wasReset :: s.record

/-- 70_reset_and_hazards.md R125, R126: the state after reset has nothing in flight, no response presented, no value
on any output, and is ready for a request. CNT is the parameter CNT_RESET without a value (log 3; the form of the
parameter is the model's choice). -/
def Obligations.ResetStateIsIdleAndReady : Prop :=
  State.reset.unit = .idle ∧ State.reset.reqReady = true ∧ State.reset.rspValid = false ∧
  (∀ p, State.reset.portValue p = none) ∧ State.reset.fcodeValue = none ∧
  State.reset.cnt = Config.cntReset 0 0

/-- 70_reset_and_hazards.md R126: after a reset edge the instance is idle and, at the next edge with `rst` = 0, ready;
and an idle instance stays ready until it accepts a request. -/
def Obligations.ReadyFromResetUntilAcceptance : Prop :=
  ∀ s t : State, step s = .next t → t.edge.rst = false →
    (s.edge.rst = true → t.unit = .idle ∧ t.reqReady = true) ∧
    (s.edge.rst = false → s.unit = .idle → t.reqReady = true ∨ ∃ req, t.unit = .inFlight req)

/-- 10_state.md R32: at every edge without reset CNT grows by the edge's draw of CNT_ADVANCE and never decreases; a
draw that would wrap is cut at the largest value (log 4: the cut is the model's way to keep R32's no-wrap). -/
def Obligations.CntNeverDecreasesWithoutReset : Prop :=
  ∀ s t : State, step s = .next t → s.edge.rst = false →
    s.cnt.toNat ≤ t.cnt.toNat ∧
    t.cnt.toNat = min (s.cnt.toNat + Config.cntAdvance s.inst s.draws) (2 ^ 64 - 1)

/-- 10_state.md R32, 43_counter.md R95: the values RDCYC returned since the last reset, newest first, do not increase
and none exceeds CNT; every step from any such state keeps this. -/
def Obligations.RdcycValuesStayOrdered : Prop :=
  ∀ s t : State, s.CountsOrdered → step s = .next t → t.CountsOrdered

/-- The order of RDCYC's values holds right after reset. -/
def Obligations.RdcycValuesOrderedAtReset : Prop := State.reset.CountsOrdered

/-! ### The operations -/

/-- 40_carry_borrow.md R69, R72: for carry_in 0 or 1, R0 and FLAG are the exact 65-bit sum a + b + carry_in, and R1
holds no value; for any larger carry_in the response is FCODE 2 with no value on any port. D is ignored. -/
def Obligations.AdcGivesTheExactSum : Prop :=
  ∀ (a b c d : Word) (s : State),
    decodeReq ⟨0x0#4, a, b, c, d⟩ = .adc a b c d ∧
    (c.toNat ≤ 1 → ∃ (r : Word) (f : BitVec 1),
      exec (.adc a b c d) s = .next { s with unit := .presented ⟨some r, none, some f, .noFault⟩ } ∧
      r.toNat + 2 ^ 64 * f.toNat = a.toNat + b.toNat + c.toNat) ∧
    (2 ≤ c.toNat →
      exec (.adc a b c d) s = .next { s with unit := .presented ⟨none, none, none, .carryInRange⟩ })

/-- 40_carry_borrow.md R73, R76: for borrow_in 0 or 1, R0 is a - b - borrow_in modulo 2^64 and FLAG its exact borrow;
R1 holds no value; for any larger borrow_in the response is FCODE 2. D is ignored. -/
def Obligations.SbbGivesTheExactDifference : Prop :=
  ∀ (a b c d : Word) (s : State),
    decodeReq ⟨0x1#4, a, b, c, d⟩ = .sbb a b c d ∧
    (c.toNat ≤ 1 → ∃ (r : Word) (f : BitVec 1),
      exec (.sbb a b c d) s = .next { s with unit := .presented ⟨some r, none, some f, .noFault⟩ } ∧
      (r.toNat : Int) - 2 ^ 64 * f.toNat = (a.toNat : Int) - b.toNat - c.toNat) ∧
    (2 ≤ c.toNat →
      exec (.sbb a b c d) s = .next { s with unit := .presented ⟨none, none, none, .carryInRange⟩ })

/-- 41_multiply.md R78: R1 * 2^64 + R0 is the exact product; FLAG holds no value; there is no fault. -/
def Obligations.MuluGivesTheExactProduct : Prop :=
  ∀ (a b c d : Word) (s : State),
    decodeReq ⟨0x2#4, a, b, c, d⟩ = .mulu a b c d ∧ ∃ low high : Word,
    exec (.mulu a b c d) s = .next { s with unit := .presented ⟨some low, some high, none, .noFault⟩ } ∧
    high.toNat * 2 ^ 64 + low.toNat = a.toNat * b.toNat

/-- 41_multiply.md R82: {R1, R0} read as 128-bit two's complement is the exact signed product; FLAG holds no value;
there is no fault. -/
def Obligations.MulsGivesTheExactSignedProduct : Prop :=
  ∀ (a b c d : Word) (s : State),
    decodeReq ⟨0x3#4, a, b, c, d⟩ = .muls a b c d ∧ ∃ low high : Word,
    exec (.muls a b c d) s = .next { s with unit := .presented ⟨some low, some high, none, .noFault⟩ } ∧
    (joinHalves high low).toInt = a.toInt * b.toInt

/-- 42_divide.md R87, R89: in the domain (high < divisor) quotient and remainder are exact; a zero divisor gives
FCODE 3, and any other divisor not above `high` gives FCODE 4, both with no value on any port. D is ignored. -/
def Obligations.DivuGivesQuotientAndRemainder : Prop :=
  ∀ (high low divisor d : Word) (s : State),
    decodeReq ⟨0x4#4, high, low, divisor, d⟩ = .divu high low divisor d ∧
    (high.toNat < divisor.toNat → ∃ q r : Word,
      exec (.divu high low divisor d) s = .next { s with unit := .presented ⟨some q, some r, none, .noFault⟩ } ∧
      q.toNat * divisor.toNat + r.toNat = high.toNat * 2 ^ 64 + low.toNat ∧ r.toNat < divisor.toNat) ∧
    (divisor = 0#64 →
      exec (.divu high low divisor d) s = .next { s with unit := .presented ⟨none, none, none, .divideByZero⟩ }) ∧
    (divisor ≠ 0#64 → divisor.toNat ≤ high.toNat →
      exec (.divu high low divisor d) s = .next { s with unit := .presented ⟨none, none, none, .divideOverflow⟩ })

/-- 43_counter.md R93, R95: RDCYC puts CNT on R0, defines no other port, never faults, and changes nothing: CNT is as
it was. All four ports are ignored. -/
def Obligations.RdcycGivesCntAndKeepsIt : Prop :=
  ∀ (a b c d : Word) (s : State),
    decodeReq ⟨0x5#4, a, b, c, d⟩ = .rdcyc a b c d ∧
    exec (.rdcyc a b c d) s = .next { s with unit := .presented ⟨some s.cnt, none, none, .noFault⟩ }

/-- 44_lane_vector.md R99, R101: for an amount up to 63 each lane is shifted left on its own, the bits shifted out
lost; for any larger amount the response is FCODE 5, never a shift modulo 64. D is ignored. -/
def Obligations.VshlShiftsEachLane : Prop :=
  ∀ (v0 v1 amount d : Word) (s : State),
    decodeReq ⟨0x6#4, v0, v1, amount, d⟩ = .vshl v0 v1 amount d ∧
    (amount.toNat ≤ 63 →
      exec (.vshl v0 v1 amount d) s =
        .next { s with unit := .presented ⟨some (v0 <<< amount.toNat), some (v1 <<< amount.toNat), none, .noFault⟩ }) ∧
    (64 ≤ amount.toNat →
      exec (.vshl v0 v1 amount d) s = .next { s with unit := .presented ⟨none, none, none, .shiftRange⟩ })

/-- 44_lane_vector.md R102: each lane is the difference modulo 2^64 of its own lanes; the borrows are discarded; there
is no fault. -/
def Obligations.VsubSubtractsEachLane : Prop :=
  ∀ (a0 a1 b0 b1 : Word) (s : State),
    decodeReq ⟨0x7#4, a0, a1, b0, b1⟩ = .vsub a0 a1 b0 b1 ∧
    exec (.vsub a0 a1 b0 b1) s =
      .next { s with unit := .presented ⟨some (a0 - b0), some (a1 - b1), none, .noFault⟩ }

/-- 60_exceptions.md R106, 30_encoding.md R56: every request whose OP is reserved gets FCODE 1, whatever its operands,
and no state changes. -/
def Obligations.ReservedOpAnswersIllegalOp : Prop :=
  ∀ (req : Request) (s : State), 8 ≤ req.op.toNat →
    decodeReq req = .reserved req.op req.a req.b req.c req.d ∧
    exec (.reserved req.op req.a req.b req.c req.d) s =
      .next { s with unit := .presented ⟨none, none, none, .illegalOp⟩ }

/-- 10_state.md R26, 30_encoding.md R58: a port an operation does not read has no effect on its outcome. -/
def Obligations.IgnoredPortsHaveNoEffect : Prop :=
  ∀ (a b c d a' b' c' d' : Word) (op : BitVec 4) (s : State),
    exec (.adc a b c d) s = exec (.adc a b c d') s ∧
    exec (.sbb a b c d) s = exec (.sbb a b c d') s ∧
    exec (.mulu a b c d) s = exec (.mulu a b c' d') s ∧
    exec (.muls a b c d) s = exec (.muls a b c' d') s ∧
    exec (.divu a b c d) s = exec (.divu a b c d') s ∧
    exec (.rdcyc a b c d) s = exec (.rdcyc a' b' c' d') s ∧
    exec (.vshl a b c d) s = exec (.vshl a b c d') s ∧
    exec (.reserved op a b c d) s = exec (.reserved op a' b' c' d') s

/-- 30_encoding.md R62, 60_exceptions.md R105: every operation, from every state, presents one response that is legal
for it, and changes nothing else: without a fault exactly the defined outputs of R62 hold a value, with one of the
operation's own fault codes none does. -/
def Obligations.EveryOperationPresentsOneLegalResponse : Prop :=
  ∀ (i : Instr) (s : State), ∃ rsp : Response,
    exec i s = .next { s with unit := .presented rsp } ∧ rsp.LegalFor i.name

/-- 30_encoding.md R60, 00_scope.md R18: an operation faults exactly outside its domain, and the code is one the table
of R60 (R105) gives the operation. -/
def Obligations.FaultExactlyOutsideTheDomain : Prop :=
  ∀ (i : Instr) (s : State), ∃ rsp : Response,
    exec i s = .next { s with unit := .presented rsp } ∧ (rsp.fcode = .noFault ↔ inDomain i) ∧
    (¬ inDomain i → rsp.fcode ∈ faultCodes i.name)

/-- 60_exceptions.md R112: one fault for a request, IllegalOp before every operand check, and for DIVU DivideByZero
before DivideOverflow. -/
def Obligations.FaultsAreChosenInOrder : Prop :=
  ∀ (req : Request) (s : State), ∃ rsp : Response,
    exec (decodeReq req) s = .next { s with unit := .presented rsp } ∧
    (8 ≤ req.op.toNat → rsp.fcode = .illegalOp) ∧
    (req.op.toNat = 4 → uint req.c = 0 → uint req.a ≥ uint req.c ∧ rsp.fcode = .divideByZero) ∧
    (req.op.toNat = 4 → uint req.c ≠ 0 → uint req.a ≥ uint req.c → rsp.fcode = .divideOverflow)

/-- 10_state.md R39: apart from RDCYC, the response to a request is a function of the request alone, the same from
every state; RDCYC's depends on CNT alone, not on the words on its ports. -/
def Obligations.ResponseDependsOnTheRequestAlone : Prop :=
  (∀ i : Instr, i.name ≠ .rdcyc → ∃ rsp : Response, ∀ s, exec i s = .next { s with unit := .presented rsp }) ∧
  ∃ f : Word → Response, ∀ (a b c d : Word) (s : State),
    exec (.rdcyc a b c d) s = .next { s with unit := .presented (f s.cnt) }

/-! ### Fault responses and the requester -/

/-- 60_exceptions.md R111, R123: a fault response that is taken leaves nothing behind: the instance is idle and, unless
reset, ready for the next request as usual, CNT has advanced as at any edge. A requester that stops on it ends the step
in a fault outcome that names the operation and the code. (That the requester's policy decides is log 7.) -/
def Obligations.TakingAFaultResponse : Prop :=
  ∀ (s : State) (rsp : Response), s.unit = .presented rsp → rsp.fcode ≠ .noFault →
    s.edge.rst = false → s.edge.rspReady = true →
    (s.edge.onFault = .carryOn → ∃ t, step s = .next t ∧ t.unit = .idle ∧ t.cnt = s.runEdge.cnt ∧
      (t.edge.rst = false → t.reqReady = true)) ∧
    (s.edge.onFault = .stop → step s = .fault (.faultResponse (decodeReq s.asked.req).name rsp.fcode))

/-- 10_state.md R27: an accepted offer one of whose operands is an output port without a value is a fault of the model,
never a number; where the operands before it can be read, the fault names the transaction and the port. That passing a
port on as an operand is reading it (log 6) and that operands are read in the order A, B, C, D (log 9) are the model's
inferences; that this holds on a port the operation ignores as well is its choice (log 16). -/
def Obligations.ReadingAPortWithoutValueFaults : Prop :=
  ∀ (s : State) (o : Offer) (tag : Nat) (p : Port) (rsp : Response),
    s.unit = .idle → s.edge.rst = false → s.edge.req = some o →
    findTagged tag s.record = some rsp → rsp.port p = none →
    ((o.a = .out tag p ∨ o.b = .out tag p ∨ o.c = .out tag p ∨ o.d = .out tag p) → ∃ f : Fault, step s = .fault f) ∧
    (o.a = .out tag p → step s = .fault (.portHoldsNoValue tag p)) ∧
    (∀ a : Word, sourceValue s.record o.a = .ok a →
      o.b = .out tag p → step s = .fault (.portHoldsNoValue tag p)) ∧
    (∀ a b : Word, sourceValue s.record o.a = .ok a → sourceValue s.record o.b = .ok b →
      o.c = .out tag p → step s = .fault (.portHoldsNoValue tag p)) ∧
    (∀ a b c : Word, sourceValue s.record o.a = .ok a → sourceValue s.record o.b = .ok b →
      sourceValue s.record o.c = .ok c → o.d = .out tag p → step s = .fault (.portHoldsNoValue tag p))

/-- 30_encoding.md R68: the FLAG of an ADC or SBB, passed on as the next one's C operand, is never out of range: the
chained transaction does not fault. -/
def Obligations.ChainedFlagNeverFaults : Prop :=
  ∀ (i : Instr) (s t : State) (rsp : Response) (k : Word), i.name = .adc ∨ i.name = .sbb →
    answerAt s i = some rsp → rsp.port .flag = some k →
    ∀ a b d : Word, ∃ r₁ r₂ : Response,
      answerAt t (.adc a b k d) = some r₁ ∧ r₁.fcode = .noFault ∧
      answerAt t (.sbb a b k d) = some r₂ ∧ r₂.fcode = .noFault

/-- 93_implementation_defined.md U7, U8: in a recorded response FCODE 6 and 7 are refused by name; any other code is
read, and only the ports the operation defines hold the recorded value. -/
def Obligations.RecordedResponsesAreReadByTheirCode : Prop :=
  ∀ (op : OpName) (w : Recorded),
    (6 ≤ w.fcode.toNat → readRecorded op w = .refused (.reservedFcode w.fcode)) ∧
    (w.fcode = 0#3 → ∃ rsp, readRecorded op w = .next rsp ∧ rsp.fcode = .noFault ∧ rsp.mask = definedPorts op ∧
      (∀ v, rsp.r0 = some v → v = w.r0) ∧ (∀ v, rsp.r1 = some v → v = w.r1) ∧ (∀ v, rsp.flag = some v → v = w.flag)) ∧
    (1 ≤ w.fcode.toNat → w.fcode.toNat ≤ 5 → ∃ code, code.bits = w.fcode ∧ readRecorded op w = .next (raiseFault code))

/-- 60_exceptions.md R105: the number of every fault code, and that 6 and 7 are the code of none. -/
def Obligations.FaultCodesHaveTheirNumbers : Prop :=
  FCode.noFault.bits = 0#3 ∧ FCode.illegalOp.bits = 1#3 ∧ FCode.carryInRange.bits = 2#3 ∧
  FCode.divideByZero.bits = 3#3 ∧ FCode.divideOverflow.bits = 4#3 ∧ FCode.shiftRange.bits = 5#3 ∧
  ∀ (v : BitVec 3) (c : FCode), FCode.ofBits v = some c ↔ (c.bits = v ∧ v.toNat ≤ 5)

/-- 30_encoding.md R66: each pseudo-instruction's expansion and what it means: a sum, a difference, a negation whose
FLAG is 1 iff its operand is not 0, a 64-by-64 divide (in its domain iff the divisor is not 0), a per-lane negation and
a per-lane copy. -/
def Obligations.PseudoInstructionsMeanWhatTheySay : Prop :=
  ∀ (x y : Word) (s : State),
    (requestOf .add [x, y] = requestOf .adc [x, y, 0#64] ∧ requestOf .sub [x, y] = requestOf .sbb [x, y, 0#64] ∧
      requestOf .neg [x] = requestOf .sbb [0#64, x, 0#64] ∧ requestOf .div64 [x, y] = requestOf .divu [0#64, x, y] ∧
      requestOf .vneg [x, y] = requestOf .vsub [0#64, 0#64, x, y] ∧
      requestOf .vmov [x, y] = requestOf .vshl [x, y, 0#64]) ∧
    (∃ req, requestOf .add [x, y] = some req ∧
      exec (decodeReq req) s = .next { s with unit := .presented ⟨some (x + y), none,
        some (if x.toNat + y.toNat < 2 ^ 64 then 0#1 else 1#1), .noFault⟩ }) ∧
    (∃ req, requestOf .sub [x, y] = some req ∧
      exec (decodeReq req) s = .next { s with unit := .presented ⟨some (x - y), none,
        some (if x.toNat < y.toNat then 1#1 else 0#1), .noFault⟩ }) ∧
    (∃ req, requestOf .neg [x] = some req ∧
      exec (decodeReq req) s = .next { s with unit := .presented ⟨some (-x), none,
        some (if x = 0#64 then 0#1 else 1#1), .noFault⟩ }) ∧
    (y ≠ 0#64 → ∃ req, requestOf .div64 [x, y] = some req ∧
      exec (decodeReq req) s = .next { s with unit := .presented ⟨some (x / y), some (x % y), none, .noFault⟩ }) ∧
    (∃ req, requestOf .div64 [x, 0#64] = some req ∧
      exec (decodeReq req) s = .next { s with unit := .presented ⟨none, none, none, .divideByZero⟩ }) ∧
    (∃ req, requestOf .vneg [x, y] = some req ∧
      exec (decodeReq req) s = .next { s with unit := .presented ⟨some (-x), some (-y), none, .noFault⟩ }) ∧
    (∃ req, requestOf .vmov [x, y] = some req ∧
      exec (decodeReq req) s = .next { s with unit := .presented ⟨some x, some y, none, .noFault⟩ })

/-- 30_encoding.md R63: the operands of a statement stand on the ports in the order A, B, C, D, their number is fixed,
and the ports beyond it are sent as 0: for the offer of a statement whose operands, literals or references, have the
sources w, x, y and z, and for a request of literal words. A statement of literals offers exactly that request, and any
other number of operands gives neither. -/
def Obligations.StatementOperandsStandInPortOrder : Prop :=
  (∀ (earlier : List Earlier) (tag : Nat) (label : Option (List Char)) (ow ox oy oz : AsmOperand) (w x y z : Source),
    ow.source earlier = .ok w → ox.source earlier = .ok x → oy.source earlier = .ok y → oz.source earlier = .ok z →
    Statement.offer earlier tag ⟨label, .adc, [ow, ox, oy]⟩ = .ok ⟨tag, 0x0#4, w, x, y, .lit 0#64⟩ ∧
    Statement.offer earlier tag ⟨label, .sbb, [ow, ox, oy]⟩ = .ok ⟨tag, 0x1#4, w, x, y, .lit 0#64⟩ ∧
    Statement.offer earlier tag ⟨label, .mulu, [ow, ox]⟩ = .ok ⟨tag, 0x2#4, w, x, .lit 0#64, .lit 0#64⟩ ∧
    Statement.offer earlier tag ⟨label, .muls, [ow, ox]⟩ = .ok ⟨tag, 0x3#4, w, x, .lit 0#64, .lit 0#64⟩ ∧
    Statement.offer earlier tag ⟨label, .divu, [ow, ox, oy]⟩ = .ok ⟨tag, 0x4#4, w, x, y, .lit 0#64⟩ ∧
    Statement.offer earlier tag ⟨label, .rdcyc, []⟩ =
      .ok ⟨tag, 0x5#4, .lit 0#64, .lit 0#64, .lit 0#64, .lit 0#64⟩ ∧
    Statement.offer earlier tag ⟨label, .vshl, [ow, ox, oy]⟩ = .ok ⟨tag, 0x6#4, w, x, y, .lit 0#64⟩ ∧
    Statement.offer earlier tag ⟨label, .vsub, [ow, ox, oy, oz]⟩ = .ok ⟨tag, 0x7#4, w, x, y, z⟩) ∧
  (∀ a b c d : Word,
    requestOf .adc [a, b, c] = some ⟨0x0#4, a, b, c, 0#64⟩ ∧ requestOf .sbb [a, b, c] = some ⟨0x1#4, a, b, c, 0#64⟩ ∧
    requestOf .mulu [a, b] = some ⟨0x2#4, a, b, 0#64, 0#64⟩ ∧ requestOf .muls [a, b] = some ⟨0x3#4, a, b, 0#64, 0#64⟩ ∧
    requestOf .divu [a, b, c] = some ⟨0x4#4, a, b, c, 0#64⟩ ∧ requestOf .rdcyc [] = some ⟨0x5#4, 0#64, 0#64, 0#64, 0#64⟩ ∧
    requestOf .vshl [a, b, c] = some ⟨0x6#4, a, b, c, 0#64⟩ ∧ requestOf .vsub [a, b, c, d] = some ⟨0x7#4, a, b, c, d⟩) ∧
  (∀ (earlier : List Earlier) (tag : Nat) (label : Option (List Char)) (m : Mnemonic) (ws : List Word) (req : Request),
    requestOf m ws = some req →
    Statement.offer earlier tag ⟨label, m, ws.map .lit⟩ =
      .ok ⟨tag, req.op, .lit req.a, .lit req.b, .lit req.c, .lit req.d⟩) ∧
  (∀ (m : Mnemonic) (ws : List Word), ws.length ≠ m.arity → requestOf m ws = none) ∧
  ∀ (earlier : List Earlier) (tag : Nat) (st : Statement), st.operands.length ≠ st.mnemonic.arity →
    Statement.offer earlier tag st = .error (.operandCount st.mnemonic st.operands.length)

/-! ### Realizations and laws -/

/-- 40_carry_borrow.md R70: the two-stage algorithm gives ADC's R0 and FLAG for every carry-in in the domain, and its
two stage carries are never both 1. -/
def Obligations.AdcIsTheTwoStageAlgorithm : Prop :=
  ∀ (a b c : Word) (s : State), c.toNat ≤ 1 →
    answerAt s (.adc a b c 0#64) =
      some ⟨some (adcTwoStage a b c).1, none, some (BitVec.ofBool (adcTwoStage a b c).2), .noFault⟩ ∧
    ¬ (uint (bits64 (uint a + uint b)) < uint a ∧
       uint (bits64 (uint (bits64 (uint a + uint b)) + uint c)) < uint c)

/-- 40_carry_borrow.md R74: the two-stage algorithm gives SBB's R0 and FLAG for every borrow-in in the domain, and its
two stage borrows are never both 1. -/
def Obligations.SbbIsTheTwoStageAlgorithm : Prop :=
  ∀ (a b c : Word) (s : State), c.toNat ≤ 1 →
    answerAt s (.sbb a b c 0#64) =
      some ⟨some (sbbTwoStage a b c).1, none, some (BitVec.ofBool (sbbTwoStage a b c).2), .noFault⟩ ∧
    ¬ (uint a < uint b ∧ uint (bits64 (uint a - uint b)) < uint c)

/-- 41_multiply.md R79: the corrected limb algorithm gives MULU's R0 and R1, and no line of it wraps: each is exact in
64-bit unsigned arithmetic, within the bounds the rule gives. -/
def Obligations.MuluIsTheLimbAlgorithm : Prop :=
  ∀ (a b : Word) (s : State),
    answerAt s (.mulu a b 0#64 0#64) =
      some ⟨some (muluLimbs a b).low, some (muluLimbs a b).high, none, .noFault⟩ ∧
    (muluLimbs a b).ll.toNat = (a.toNat % 2 ^ 32) * (b.toNat % 2 ^ 32) ∧
    (muluLimbs a b).hl.toNat = (a.toNat / 2 ^ 32) * (b.toNat % 2 ^ 32) ∧
    (muluLimbs a b).lh.toNat = (a.toNat % 2 ^ 32) * (b.toNat / 2 ^ 32) ∧
    (muluLimbs a b).hh.toNat = (a.toNat / 2 ^ 32) * (b.toNat / 2 ^ 32) ∧
    (muluLimbs a b).mid1.toNat = (muluLimbs a b).hl.toNat + (muluLimbs a b).ll.toNat / 2 ^ 32 ∧
    (muluLimbs a b).mid1.toNat ≤ 2 ^ 64 - 2 ^ 32 ∧
    (muluLimbs a b).mid2.toNat = (muluLimbs a b).lh.toNat + (muluLimbs a b).mid1.toNat % 2 ^ 32 ∧
    (muluLimbs a b).mid2.toNat ≤ 2 ^ 64 - 2 ^ 32 ∧
    (muluLimbs a b).high.toNat =
      (muluLimbs a b).hh.toNat + (muluLimbs a b).mid1.toNat / 2 ^ 32 + (muluLimbs a b).mid2.toNat / 2 ^ 32 ∧
    (muluLimbs a b).ll.toNat ≤ (2 ^ 32 - 1) ^ 2 ∧ (muluLimbs a b).hl.toNat ≤ (2 ^ 32 - 1) ^ 2 ∧
    (muluLimbs a b).lh.toNat ≤ (2 ^ 32 - 1) ^ 2 ∧ (muluLimbs a b).hh.toNat ≤ (2 ^ 32 - 1) ^ 2

/-- 41_multiply.md R84: the signed product's range; MULS and MULU give the same R0; MULS's R1 follows from MULU's by
the rule's identity; bits 127 and 126 of the signed product differ only for the product 2^126. -/
def Obligations.MulsFollowsFromMulu : Prop :=
  ∀ (a b : Word) (s : State), ∃ low highU highS : Word,
    answerAt s (.mulu a b 0#64 0#64) = some ⟨some low, some highU, none, .noFault⟩ ∧
    answerAt s (.muls a b 0#64 0#64) = some ⟨some low, some highS, none, .noFault⟩ ∧
    highS = mulsHighFrom a b highU ∧
    -2 ^ 126 + 2 ^ 63 ≤ sint a * sint b ∧ sint a * sint b ≤ 2 ^ 126 ∧
    ((joinHalves highS low).getLsbD 127 ≠ (joinHalves highS low).getLsbD 126 ↔ sint a * sint b = 2 ^ 126)

/-- 41_multiply.md R80, R86: both multiplies are commutative, and MULS by 1 is the sign-extension to 128 bits. -/
def Obligations.MultipliesCommute : Prop :=
  ∀ (a b : Word) (s : State),
    answerAt s (.mulu a b 0#64 0#64) = answerAt s (.mulu b a 0#64 0#64) ∧
    answerAt s (.muls a b 0#64 0#64) = answerAt s (.muls b a 0#64 0#64) ∧
    answerAt s (.muls a 1#64 0#64 0#64) =
      some ⟨some a, some (if a.getLsbD 63 then 0xFFFFFFFFFFFFFFFF#64 else 0#64), none, .noFault⟩

/-- 42_divide.md R88: the domain test is exactly 'divisor not 0 and the quotient fits in 64 bits', so that in the
domain both results fit. -/
def Obligations.DomainTestIsQuotientFits : Prop :=
  ∀ high low divisor : Word,
    (uint high < uint divisor ↔ (uint divisor ≠ 0 ∧ dividend high low / uint divisor < 2 ^ 64)) ∧
    (uint high < uint divisor → dividend high low % uint divisor < 2 ^ 64)

/-- 42_divide.md R91: the divide's identity in its domain; the round trip of DIVU 0, B, C; and DIVU undoes MULU. -/
def Obligations.DivuUndoesMulu : Prop :=
  ∀ (a b c : Word) (s : State),
    (uint a < uint c → ∃ q r : Word, answerAt s (.divu a b c 0#64) = some ⟨some q, some r, none, .noFault⟩ ∧
      uint q * uint c + uint r = uint a * 2 ^ 64 + uint b ∧ 0 ≤ uint r ∧ uint r < uint c) ∧
    (c ≠ 0#64 → ∃ q r : Word, answerAt s (.divu 0#64 b c 0#64) = some ⟨some q, some r, none, .noFault⟩ ∧
      uint q * uint c + uint r = uint b) ∧
    (c ≠ 0#64 → ∃ low high : Word, answerAt s (.mulu a c 0#64 0#64) = some ⟨some low, some high, none, .noFault⟩ ∧
      uint high < uint c ∧ answerAt s (.divu high low c 0#64) = some ⟨some a, some 0#64, none, .noFault⟩)

/-- 40_carry_borrow.md R77, first law: SBB a, b, k gives the R0 of ADC a, 2^64 - 1 - b, 1 - k, and the opposite FLAG. -/
def Obligations.SbbIsAdcOfTheComplement : Prop :=
  ∀ (a b k : Word) (s : State), k.toNat ≤ 1 → ∃ (r : Word) (f : BitVec 1),
    answerAt s (.sbb a b k 0#64) = some ⟨some r, none, some f, .noFault⟩ ∧
    answerAt s (.adc a (bits64 (2 ^ 64 - 1 - uint b)) (bits64 (1 - uint k)) 0#64) =
      some ⟨some r, none, some (~~~f), .noFault⟩

/-- 40_carry_borrow.md R77, second law, with 30_encoding.md R68: a chain of ADC over the words of two numbers of any
length, each FLAG the next one's C operand, never faults and gives the exact multi-word sum and its carry-out. -/
def Obligations.AdcChainIsTheExactSum : Prop :=
  ∀ (s : State) (words : List (Word × Word)), ∃ (sum : List Word) (carry : Word),
    adcChain s words = some (sum, carry) ∧ sum.length = words.length ∧ carry.toNat ≤ 1 ∧
    wordsValue sum + 2 ^ (64 * words.length) * carry.toNat =
      wordsValue (words.map Prod.fst) + wordsValue (words.map Prod.snd)

/-- 40_carry_borrow.md R77, second law: a chain of SBB gives the exact multi-word difference and its borrow-out. -/
def Obligations.SbbChainIsTheExactDifference : Prop :=
  ∀ (s : State) (words : List (Word × Word)), ∃ (diff : List Word) (borrow : Word),
    sbbChain s words = some (diff, borrow) ∧ diff.length = words.length ∧ borrow.toNat ≤ 1 ∧
    (wordsValue diff : Int) - 2 ^ (64 * words.length) * borrow.toNat =
      (wordsValue (words.map Prod.fst) : Int) - wordsValue (words.map Prod.snd)

/-- 44_lane_vector.md R104: VSUB's lane i is SBB's R0 on the same lane operands with borrow-in 0, and VSHL's lane i is
the scalar bits_64(lane_i * 2^s): neither lane's result depends on the other lane. -/
def Obligations.LanesMatchTheScalarOperations : Prop :=
  ∀ (x0 x1 y0 y1 n : Word) (s : State),
    (∃ (r0 r1 : Word) (f0 f1 : BitVec 1),
      answerAt s (.sbb x0 y0 0#64 0#64) = some ⟨some r0, none, some f0, .noFault⟩ ∧
      answerAt s (.sbb x1 y1 0#64 0#64) = some ⟨some r1, none, some f1, .noFault⟩ ∧
      answerAt s (.vsub x0 x1 y0 y1) = some ⟨some r0, some r1, none, .noFault⟩) ∧
    (n.toNat ≤ 63 → answerAt s (.vshl x0 x1 n 0#64) =
      some ⟨some (bits64 (uint x0 * 2 ^ n.toNat)), some (bits64 (uint x1 * 2 ^ n.toNat)), none, .noFault⟩)

/-! ### The whole machine -/

/-- 70_reset_and_hazards.md R132: a request in flight gets the response of its operation after finitely many edges, if
no reset comes: at the latest one edge after `lines` has run out (log 2). -/
def Obligations.RequestInFlightIsAnswered : Prop :=
  ∀ (s : State) (req : Request), s.unit = .inFlight req → s.noReset →
    ∃ (k : Nat) (t : State) (rsp : Response), k ≤ s.lines.length + 1 ∧ s.Reaches k t ∧ t.unit = .presented rsp ∧
      AnsweredAs req rsp

/-- The requester's note and every response presented or recorded stay consistent at every step from any consistent
state: each response is one its operation gives to its request (with R39, for every operation but RDCYC the only one).
The note and the record are the model's own fields (log 8). -/
def Obligations.StepKeepsResponsesConsistent : Prop :=
  ∀ s t : State, s.Consistent → step s = .next t → t.Consistent

/-- The state after reset is consistent. -/
def Obligations.ResponsesConsistentAtReset : Prop := State.reset.Consistent

/-- 10_state.md R38: instances share nothing: an edge at instance `k` is a step of that instance alone, and every other
instance is as it was. (That instances step one at a time is the model's choice, log 14.) -/
def Obligations.InstancesShareNothing : Prop :=
  ∀ (sys sys' : Instances) (k : Nat), sys.stepAt k = .next sys' →
    sys'.count = sys.count ∧ (∀ j, j ≠ k → sys'.at? j = sys.at? j) ∧
    ∃ s t, sys.at? k = some s ∧ step s = .next t ∧ sys'.at? k = some t

/-- 30_encoding.md R64, 70_reset_and_hazards.md R128: an accepted offer one of whose operands refers to a transaction
whose response the requester has not taken stops the model; where the operands before it can be read, the fault names
the transaction. The fault and the reading order A, B, C, D are the model's choice (log 9), and so is that this holds
on a port the operation ignores as well (log 16). -/
def Obligations.ReferenceToAnUntakenResponseFaults : Prop :=
  ∀ (s : State) (o : Offer) (tag : Nat) (p : Port),
    s.unit = .idle → s.edge.rst = false → s.edge.req = some o → findTagged tag s.record = none →
    ((o.a = .out tag p ∨ o.b = .out tag p ∨ o.c = .out tag p ∨ o.d = .out tag p) → ∃ f : Fault, step s = .fault f) ∧
    (o.a = .out tag p → step s = .fault (.noSuchResponse tag)) ∧
    (∀ a : Word, sourceValue s.record o.a = .ok a →
      o.b = .out tag p → step s = .fault (.noSuchResponse tag)) ∧
    (∀ a b : Word, sourceValue s.record o.a = .ok a → sourceValue s.record o.b = .ok b →
      o.c = .out tag p → step s = .fault (.noSuchResponse tag)) ∧
    (∀ a b c : Word, sourceValue s.record o.a = .ok a → sourceValue s.record o.b = .ok b →
      sourceValue s.record o.c = .ok c → o.d = .out tag p → step s = .fault (.noSuchResponse tag))

/-- 00_scope.md R11, 70_reset_and_hazards.md R125: every system has at least one instance; a system right after reset
has the number asked for, each of them as one instance is after reset. -/
def Obligations.SystemHasAtLeastOneInstance : Prop :=
  (∀ sys : Instances, 1 ≤ sys.count ∧ ∀ k, (∃ s, sys.at? k = some s) ↔ k < sys.count) ∧
  ∀ n k : Nat, (Instances.reset n).count = n + 1 ∧
    (k ≤ n → (Instances.reset n).at? k = some (State.resetOf k))

/-- 30_encoding.md R64: a literal operand stands for its pattern, and a reference `label.port` for that port of the
earlier transaction with that label; a reference to a port its operation does not define (R62), or to a label no earlier
statement has, is an assembly error. The model's choices, not the rule's (log 15): that the nearest of two equal labels
is meant (`earlier` is newest first, AssembledStatementsReferToEarlierOnes), and that a defined port assembles also
where the earlier transaction turns out to answer with a fault, which R64 calls an assembly error too: the text alone
does not show it, and the machine stops there at run time instead (log 6, ReadingAPortWithoutValueFaults). -/
def Obligations.ReferencesNameEarlierTransactions : Prop :=
  ∀ (earlier : List Earlier) (label : List Char) (p : Port),
    (∀ w : Word, (AsmOperand.lit w).source earlier = .ok (.lit w)) ∧
    (∀ (newer older : List Earlier) (tag : Nat) (op : OpName),
      earlier = newer ++ ⟨label, tag, op⟩ :: older → (∀ e ∈ newer, e.label ≠ label) →
      (definesPort op p = true → (AsmOperand.ref label p).source earlier = .ok (.out tag p)) ∧
      (definesPort op p = false → (AsmOperand.ref label p).source earlier = .error (.undefinedOutput label p))) ∧
    ((∀ e ∈ earlier, e.label ≠ label) → (AsmOperand.ref label p).source earlier = .error (.unknownLabel label))

/-- 30_encoding.md R66: a statement of a pseudo-instruction, its operands literals or references, offers exactly what
the statement of its expansion offers. -/
def Obligations.PseudoStatementsOfferTheirExpansion : Prop :=
  ∀ (earlier : List Earlier) (tag : Nat) (label : Option (List Char)) (x y : AsmOperand),
    Statement.offer earlier tag ⟨label, .add, [x, y]⟩ = Statement.offer earlier tag ⟨label, .adc, [x, y, .lit 0#64]⟩ ∧
    Statement.offer earlier tag ⟨label, .sub, [x, y]⟩ = Statement.offer earlier tag ⟨label, .sbb, [x, y, .lit 0#64]⟩ ∧
    Statement.offer earlier tag ⟨label, .neg, [x]⟩ =
      Statement.offer earlier tag ⟨label, .sbb, [.lit 0#64, x, .lit 0#64]⟩ ∧
    Statement.offer earlier tag ⟨label, .div64, [x, y]⟩ = Statement.offer earlier tag ⟨label, .divu, [.lit 0#64, x, y]⟩ ∧
    Statement.offer earlier tag ⟨label, .vneg, [x, y]⟩ =
      Statement.offer earlier tag ⟨label, .vsub, [.lit 0#64, .lit 0#64, x, y]⟩ ∧
    Statement.offer earlier tag ⟨label, .vmov, [x, y]⟩ = Statement.offer earlier tag ⟨label, .vshl, [x, y, .lit 0#64]⟩

/-- 30_encoding.md R63, R64: a program assembles, statement by statement, to one offer each; the statement numbered `k`
is offered under tag `k`, and its references see the labelled statements before it, newest first, and no others. (The
tags are the model's own, log 8; the order is its choice for equal labels, log 15.) -/
def Obligations.AssembledStatementsReferToEarlierOnes : Prop :=
  ∀ (prog : List Statement) (offers : List Offer), assemble prog = .ok offers →
    offers.length = prog.length ∧
    ∀ (k : Nat) (st : Statement), prog[k]? = some st →
      ∃ o, offers[k]? = some o ∧ o.tag = k ∧ st.offer (earlierOf (prog.take k)) k = .ok o
end

