-- ==== Sys2Proof/Laws/Instances.lean ====
section
/-! SUPPORT. The small lemmas of a system of instances, and everything one of its steps can do. -/

namespace Sys2Proof.Machine

/-- N_INST ≥ 1 (00_scope.md R11). -/
theorem Instances.count_pos (sys : Instances) : 1 ≤ sys.count := Nat.le_add_left 1 _

@[simp] theorem Instances.count_put (sys : Instances) (t : State) (k : Nat) : (sys.put t k).count = sys.count := by
  cases k <;> simp [Instances.put, Instances.count]

theorem Instances.at?_put_ne (sys : Instances) (t : State) {j k : Nat} (h : j ≠ k) :
    (sys.put t k).at? j = sys.at? j := by
  cases k <;> cases j <;> simp_all [Instances.put, Instances.at?]
  exact List.getElem?_set_ne (Ne.symm h)

theorem Instances.at?_put_self (sys : Instances) (s t : State) {k : Nat} (h : sys.at? k = some s) :
    (sys.put t k).at? k = some t := by
  cases k with
  | zero => rfl
  | succ k =>
    have hk : k < sys.others.length := by
      by_contra hk
      simp [Instances.at?, List.getElem?_eq_none (Nat.le_of_not_lt hk)] at h
    simp [Instances.put, Instances.at?, hk]

/-- What a step of the system that answers a next state can have done: a step of one instance. -/
theorem Instances.stepAt_cases {sys sys' : Instances} {k : Nat} (h : sys.stepAt k = .next sys') :
    ∃ s t, sys.at? k = some s ∧ step s = .next t ∧ sys' = sys.put t k := by
  unfold Instances.stepAt at h
  split at h
  · cases h
  · rename_i s hs
    split at h <;> cases h
    rename_i t ht
    exact ⟨s, t, hs, ht, rfl⟩

end Sys2Proof.Machine
end

