-- ==== Sys2Proof/Laws/State.lean ====
section
/-! SUPPORT. One lemma for each field of `State` under each update the machine makes. -/

namespace Sys2Proof.Machine

@[simp] theorem State.present_cnt (s : State) (rsp : Response) : (s.present rsp).cnt = s.cnt := rfl
@[simp] theorem State.present_unit (s : State) (rsp : Response) : (s.present rsp).unit = .presented rsp := rfl
@[simp] theorem State.present_inst (s : State) (rsp : Response) : (s.present rsp).inst = s.inst := rfl
@[simp] theorem State.present_draws (s : State) (rsp : Response) : (s.present rsp).draws = s.draws := rfl
@[simp] theorem State.present_lines (s : State) (rsp : Response) : (s.present rsp).lines = s.lines := rfl
@[simp] theorem State.present_asked (s : State) (rsp : Response) : (s.present rsp).asked = s.asked := rfl
@[simp] theorem State.present_record (s : State) (rsp : Response) : (s.present rsp).record = s.record := rfl

@[simp] theorem State.consumeEdge_cnt (s : State) : s.consumeEdge.cnt = s.cnt := rfl
@[simp] theorem State.consumeEdge_unit (s : State) : s.consumeEdge.unit = s.unit := rfl
@[simp] theorem State.consumeEdge_inst (s : State) : s.consumeEdge.inst = s.inst := rfl
@[simp] theorem State.consumeEdge_draws (s : State) : s.consumeEdge.draws = s.draws + 1 := rfl
@[simp] theorem State.consumeEdge_lines (s : State) : s.consumeEdge.lines = s.lines.tail := rfl
@[simp] theorem State.consumeEdge_asked (s : State) : s.consumeEdge.asked = s.asked := rfl
@[simp] theorem State.consumeEdge_record (s : State) : s.consumeEdge.record = s.record := rfl

@[simp] theorem State.advanceCnt_cnt (s : State) : s.advanceCnt.cnt = growCnt s.cnt (Config.cntAdvance s.inst s.draws) := rfl
@[simp] theorem State.advanceCnt_unit (s : State) : s.advanceCnt.unit = s.unit := rfl
@[simp] theorem State.advanceCnt_inst (s : State) : s.advanceCnt.inst = s.inst := rfl
@[simp] theorem State.advanceCnt_draws (s : State) : s.advanceCnt.draws = s.draws := rfl
@[simp] theorem State.advanceCnt_lines (s : State) : s.advanceCnt.lines = s.lines := rfl
@[simp] theorem State.advanceCnt_asked (s : State) : s.advanceCnt.asked = s.asked := rfl
@[simp] theorem State.advanceCnt_record (s : State) : s.advanceCnt.record = s.record := rfl

@[simp] theorem State.runEdge_cnt (s : State) : s.runEdge.cnt = growCnt s.cnt (Config.cntAdvance s.inst s.draws) := rfl
@[simp] theorem State.runEdge_unit (s : State) : s.runEdge.unit = s.unit := rfl
@[simp] theorem State.runEdge_inst (s : State) : s.runEdge.inst = s.inst := rfl
@[simp] theorem State.runEdge_draws (s : State) : s.runEdge.draws = s.draws + 1 := rfl
@[simp] theorem State.runEdge_lines (s : State) : s.runEdge.lines = s.lines.tail := rfl
@[simp] theorem State.runEdge_asked (s : State) : s.runEdge.asked = s.asked := rfl
@[simp] theorem State.runEdge_record (s : State) : s.runEdge.record = s.record := rfl

@[simp] theorem State.resetEdge_cnt (s : State) : s.resetEdge.cnt = Config.cntReset s.inst s.draws := rfl
@[simp] theorem State.resetEdge_unit (s : State) : s.resetEdge.unit = .idle := rfl
@[simp] theorem State.resetEdge_inst (s : State) : s.resetEdge.inst = s.inst := rfl
@[simp] theorem State.resetEdge_draws (s : State) : s.resetEdge.draws = s.draws + 1 := rfl
@[simp] theorem State.resetEdge_lines (s : State) : s.resetEdge.lines = s.lines.tail := rfl
@[simp] theorem State.resetEdge_asked (s : State) : s.resetEdge.asked = s.asked := rfl
@[simp] theorem State.resetEdge_record (s : State) : s.resetEdge.record = .wasReset :: s.record := rfl

@[simp] theorem State.withRequest_cnt (s : State) (req : Request) : (s.withRequest req).cnt = s.cnt := rfl
@[simp] theorem State.withRequest_unit (s : State) (req : Request) : (s.withRequest req).unit = .inFlight req := rfl
@[simp] theorem State.withRequest_inst (s : State) (req : Request) : (s.withRequest req).inst = s.inst := rfl
@[simp] theorem State.withRequest_draws (s : State) (req : Request) : (s.withRequest req).draws = s.draws := rfl
@[simp] theorem State.withRequest_lines (s : State) (req : Request) : (s.withRequest req).lines = Edge.quiet :: s.lines := rfl
@[simp] theorem State.withRequest_asked (s : State) (req : Request) : (s.withRequest req).asked = ⟨0, req⟩ := rfl
@[simp] theorem State.withRequest_record (s : State) (req : Request) : (s.withRequest req).record = s.record := rfl

@[simp] theorem State.withRequest_edge (s : State) (req : Request) : (s.withRequest req).edge = Edge.quiet := rfl

end Sys2Proof.Machine
end

