-- ==== Sys2Proof/Laws/Ops.lean ====
section
/-! SUPPORT. What each shared operation can do, said once; and what one step can do. -/

namespace Sys2Proof.Machine

/-! ### Words and integers -/

theorem uint_nonneg (x : Word) : 0 ≤ uint x := by simp [uint]

theorem uint_lt (x : Word) : uint x < 2 ^ 64 := by
  have := x.isLt
  simp only [uint]; omega

theorem uint_eq_toNat (x : Word) : uint x = (x.toNat : Int) := rfl

/-- bits_64 keeps the value modulo 2^64 (00_scope.md R14). -/
theorem uint_bits64 (v : Int) : uint (bits64 v) = v % 2 ^ 64 := by
  simp only [uint, bits64, BitVec.toNat_ofInt]
  have : (0 : Int) ≤ v % 2 ^ 64 := Int.emod_nonneg _ (by decide)
  simpa using this

/-- bits_64 of a value that fits is that value. -/
theorem uint_bits64_of_range {v : Int} (h0 : 0 ≤ v) (h1 : v < 2 ^ 64) : uint (bits64 v) = v := by
  rw [uint_bits64, Int.emod_eq_of_lt h0 h1]

theorem uint_injective {x y : Word} (h : uint x = uint y) : x = y :=
  BitVec.eq_of_toNat_eq (by simpa [uint] using h)

/-! ### The counter -/

/-- CNT never decreases (10_state.md R32). -/
theorem growCnt_ge (cnt : Word) (n : Nat) : cnt.toNat ≤ (growCnt cnt n).toNat := by
  have := cnt.isLt
  simp only [growCnt, BitVec.toNat_ofNat]; omega

/-- CNT grows by exactly the draw where that does not wrap. -/
theorem growCnt_exact (cnt : Word) (n : Nat) (h : cnt.toNat + n < 2 ^ 64) :
    (growCnt cnt n).toNat = cnt.toNat + n := by
  simp only [growCnt, BitVec.toNat_ofNat]; omega

/-- Every value from CNT up is reached by some draw: the model fixes none. -/
theorem growCnt_reaches (cnt v : Word) (h : cnt.toNat ≤ v.toNat) : ∃ n, growCnt cnt n = v := by
  refine ⟨v.toNat - cnt.toNat, BitVec.eq_of_toNat_eq ?_⟩
  have := v.isLt
  rw [growCnt_exact] <;> omega

/-! ### Reading an offer -/

/-- A source can fail to be read in two ways (30_encoding.md R64, 10_state.md R27). -/
theorem sourceValue_error {record : List Entry} {src : Source} {f : Fault} (h : sourceValue record src = .error f) :
    ∃ tag p, src = .out tag p ∧
      ((findTagged tag record = none ∧ f = .noSuchResponse tag) ∨
       (∃ rsp, findTagged tag record = some rsp ∧ rsp.port p = none ∧ f = .portHoldsNoValue tag p)) := by
  cases src with
  | lit w => cases h
  | out tag p =>
    refine ⟨tag, p, rfl, ?_⟩
    simp only [sourceValue] at h
    split at h
    · rename_i hn; cases h; exact .inl ⟨hn, rfl⟩
    · rename_i rsp hs
      split at h
      · rename_i hp; cases h; exact .inr ⟨rsp, hs, hp, rfl⟩
      · cases h

/-- An offer that reads as a request has every operand readable, and the request holds the words read. -/
theorem resolveOffer_ok {record : List Entry} {o : Offer} {req : Request} (h : resolveOffer record o = .ok req) :
    req.op = o.op ∧ sourceValue record o.a = .ok req.a ∧ sourceValue record o.b = .ok req.b ∧
      sourceValue record o.c = .ok req.c ∧ sourceValue record o.d = .ok req.d := by
  unfold resolveOffer at h
  repeat' split at h
  all_goals cases h
  exact ⟨rfl, ‹_›, ‹_›, ‹_›, ‹_›⟩

/-! ### The handshake -/

/-- What an edge can do while the unit is idle. -/
theorem State.accept_cases {s t : State} {o : Option Offer} (h : s.accept o = .next t) :
    (o = none ∧ t = s) ∨
    ∃ x req, o = some x ∧ resolveOffer s.record x = .ok req ∧
      t = { s with unit := .inFlight req, asked := ⟨x.tag, req⟩ } := by
  cases o with
  | none => simp only [State.accept, Host.Outcome.next.injEq] at h; exact .inl ⟨rfl, h.symm⟩
  | some x =>
    simp only [State.accept] at h
    split at h
    · cases h
    · rename_i req hreq
      simp only [Host.Outcome.next.injEq] at h
      exact .inr ⟨x, req, rfl, hreq, h.symm⟩

/-- What an edge can do while a response is presented. -/
theorem State.take_cases {s t : State} {e : Edge} {rsp : Response} (h : s.take e rsp = .next t) :
    (e.rspReady = false ∧ t = s) ∨
    (e.rspReady = true ∧ (rsp.fcode = .noFault ∨ e.onFault = .carryOn) ∧
      t = { s with unit := .idle, record := .answered s.asked.tag s.asked.req rsp :: s.record }) := by
  unfold State.take at h
  split at h
  · rename_i hr
    split at h
    · cases h
    · rename_i hc
      simp only [Host.Outcome.next.injEq] at h
      refine .inr ⟨hr, ?_, h.symm⟩
      by_cases hf : rsp.fcode = .noFault
      · exact .inl hf
      · right
        cases hp : e.onFault with
        | carryOn => rfl
        | stop => exact absurd ⟨hf, hp⟩ hc
  · rename_i hr
    simp only [Host.Outcome.next.injEq] at h
    exact .inl ⟨by simpa using hr, h.symm⟩

/-- Everything an operation does: it presents one response. -/
theorem exec_presents (i : Instr) (s : State) : ∃ rsp, exec i s = .next (s.present rsp) := by
  cases i <;> exact ⟨_, rfl⟩

/-- Everything a step that answers a next state can have done. -/
theorem step_cases {s t : State} (h : step s = .next t) :
    (s.edge.rst = true ∧ t = s.resetEdge) ∨
    (s.edge.rst = false ∧
      ((s.unit = .idle ∧ s.runEdge.accept s.edge.req = .next t) ∨
       (∃ req, s.unit = .inFlight req ∧
          ((s.edge.done = true ∧ exec (decodeReq req) s.runEdge = .next t) ∨ (s.edge.done = false ∧ t = s.runEdge))) ∨
       (∃ rsp, s.unit = .presented rsp ∧ s.runEdge.take s.edge rsp = .next t))) := by
  unfold step at h
  split at h
  · rename_i hr
    simp only [Host.Outcome.next.injEq] at h
    exact .inl ⟨hr, h.symm⟩
  · rename_i hr
    refine .inr ⟨by simpa using hr, ?_⟩
    split at h
    · rename_i hu; exact .inl ⟨hu, h⟩
    · rename_i req hu
      split at h
      · rename_i hd; exact .inr (.inl ⟨req, hu, .inl ⟨hd, h⟩⟩)
      · rename_i hd
        simp only [Host.Outcome.next.injEq] at h
        exact .inr (.inl ⟨req, hu, .inr ⟨by simpa using hd, h.symm⟩⟩)
    · rename_i rsp hu; exact .inr (.inr ⟨rsp, hu, h⟩)

/-! ### Responses -/

@[simp] theorem flagged_fcode (r : Word) (f : BitVec 1) : (flagged r f).fcode = .noFault := rfl
@[simp] theorem paired_fcode (x y : Word) : (paired x y).fcode = .noFault := rfl
@[simp] theorem single_fcode (x : Word) : (single x).fcode = .noFault := rfl
@[simp] theorem raiseFault_fcode (c : FCode) : (raiseFault c).fcode = c := rfl

/-- A fault response holds no value on any port (10_state.md R27). -/
@[simp] theorem raiseFault_port (c : FCode) (p : Port) : (raiseFault c).port p = none := by cases p <;> rfl

end Sys2Proof.Machine
end

