-- ==== Sys2Proof/Laws/PerInstr.lean ====
section
/-! SUPPORT. Statements about every instruction as syntax, one lemma for each constructor. -/

namespace Sys2Proof.Laws.FieldRoundTrip

/-- Decoding the request of a well-formed command gives the command back, at the level of the five fields. -/
def Statement (i : Instr) : Prop := i.wellFormed = true → decodeReq (encodeReq i) = i

theorem adc (a b c d : Word) : Statement (.adc a b c d) := fun _ => rfl
theorem sbb (a b c d : Word) : Statement (.sbb a b c d) := fun _ => rfl
theorem mulu (a b c d : Word) : Statement (.mulu a b c d) := fun _ => rfl
theorem muls (a b c d : Word) : Statement (.muls a b c d) := fun _ => rfl
theorem divu (a b c d : Word) : Statement (.divu a b c d) := fun _ => rfl
theorem rdcyc (a b c d : Word) : Statement (.rdcyc a b c d) := fun _ => rfl
theorem vshl (a b c d : Word) : Statement (.vshl a b c d) := fun _ => rfl
theorem vsub (a b c d : Word) : Statement (.vsub a b c d) := fun _ => rfl

theorem reserved (op : BitVec 4) (a b c d : Word) : Statement (.reserved op a b c d) := by
  intro h
  have h8 : 8 ≤ op.toNat := by simpa [Instr.wellFormed] using h
  unfold decodeReq encodeReq
  simp only [Instr.opValue]
  split <;> first | rfl | omega

end Sys2Proof.Laws.FieldRoundTrip
end

