-- ==== Sys2Proof/Laws/Requester.lean ====
section
/-! SUPPORT. What the requester's operations can do, said once: reading a source and an offer, and making an offer from
a statement. -/

namespace Sys2Proof.Machine

/-! ### Reading an offer (30_encoding.md R64) -/

theorem findTagged_eq_some_iff {record : List Entry} {tag : Nat} {rsp : Response} :
    findTagged tag record = some rsp ↔ LatestTaken record tag rsp := by
  induction record with
  | nil => simp [findTagged, LatestTaken]
  | cons e es ih =>
    constructor
    · intro h
      cases e with
      | wasReset =>
        obtain ⟨newer, req, older, rfl, hn⟩ := ih.1 h
        exact ⟨.wasReset :: newer, req, older, rfl, by simpa using hn⟩
      | answered t q r =>
        simp only [findTagged] at h
        split at h
        · rename_i ht
          cases h
          exact ⟨[], q, es, by rw [ht]; rfl, by simp⟩
        · rename_i ht
          obtain ⟨newer, req, older, rfl, hn⟩ := ih.1 h
          refine ⟨.answered t q r :: newer, req, older, rfl, fun q' r' hm => ?_⟩
          rcases List.mem_cons.1 hm with hm | hm
          · cases hm; exact ht rfl
          · exact hn q' r' hm
    · rintro ⟨newer, req, older, he, hn⟩
      cases newer with
      | nil => cases he; simp [findTagged]
      | cons x xs =>
        cases he
        have hxs := ih.2 ⟨xs, req, older, rfl, fun q r hm => hn q r (List.mem_cons_of_mem _ hm)⟩
        cases e with
        | wasReset => exact hxs
        | answered t q r =>
          have ht : t ≠ tag := fun ht => hn q r (by rw [ht]; exact List.mem_cons_self)
          simp only [findTagged, if_neg ht, hxs]

theorem port_eq_some_iff {rsp : Response} {p : Port} {w : Word} : rsp.port p = some w ↔ rsp.Holds p w := by
  cases p with
  | r0 => exact Iff.rfl
  | r1 => exact Iff.rfl
  | flag =>
    simp only [Response.port, Response.Holds, Option.map_eq_some_iff]
    refine exists_congr fun f => and_congr_right fun _ => ?_
    have hf : (BitVec.setWidth 64 f).toNat = f.toNat := BitVec.toNat_setWidth_of_le (by decide)
    exact ⟨fun h => h ▸ hf, fun h => BitVec.eq_of_toNat_eq (hf.trans h.symm)⟩

theorem sourceValue_eq_ok_iff {record : List Entry} {src : Source} {w : Word} :
    sourceValue record src = .ok w ↔ StandsFor record src w := by
  cases src with
  | lit v => simp [sourceValue, StandsFor, eq_comm]
  | out tag p =>
    simp only [sourceValue, StandsFor, ← findTagged_eq_some_iff, ← port_eq_some_iff]
    cases findTagged tag record with
    | none => simp
    | some rsp => cases h : rsp.port p <;> simp [h]

/-- Reading an offer answers exactly the request it carries. -/
theorem resolveOffer_eq_ok_iff {record : List Entry} {o : Offer} {req : Request} :
    resolveOffer record o = .ok req ↔ Carries record o req := by
  simp only [Carries, ← sourceValue_eq_ok_iff]
  refine ⟨resolveOffer_ok, fun ⟨h0, ha, hb, hc, hd⟩ => ?_⟩
  simp only [resolveOffer, ha, hb, hc, hd, ← h0]

/-! ### Making an offer from a statement (30_encoding.md R63, R64) -/

theorem findLabel_eq_none {label : List Char} {es : List Earlier} (h : ∀ e ∈ es, e.label ≠ label) :
    findLabel label es = none := by
  induction es with
  | nil => rfl
  | cons e es ih => simp [findLabel, h e List.mem_cons_self, ih fun x hx => h x (List.mem_cons_of_mem _ hx)]

/-- Of the earlier statements with a label, the nearest is found. -/
theorem findLabel_nearest {label : List Char} {newer older : List Earlier} {x : Earlier} (hx : x.label = label)
    (h : ∀ e ∈ newer, e.label ≠ label) : findLabel label (newer ++ x :: older) = some x := by
  induction newer with
  | nil => simp [findLabel, hx]
  | cons e es ih => simp [findLabel, h e List.mem_cons_self, ih fun x hx => h x (List.mem_cons_of_mem _ hx)]

@[simp] theorem sourcesOf_nil (earlier : List Earlier) : sourcesOf earlier [] = .ok [] := rfl

theorem sourcesOf_cons_ok {earlier : List Earlier} {o : AsmOperand} {os : List AsmOperand} {x : Source}
    {xs : List Source} (ho : o.source earlier = .ok x) (hs : sourcesOf earlier os = .ok xs) :
    sourcesOf earlier (o :: os) = .ok (x :: xs) := by simp only [sourcesOf, ho, hs]

/-- Literal operands are always read, each as its own pattern. -/
@[simp] theorem sourcesOf_lits (earlier : List Earlier) (ws : List Word) :
    sourcesOf earlier (ws.map .lit) = .ok (ws.map .lit) := by
  induction ws with
  | nil => rfl
  | cons w ws ih => exact sourcesOf_cons_ok rfl ih

end Sys2Proof.Machine
end

