-- ==== Sys2Proof/Tests/Slice0.lean ====
section
/-! SUPPORT. Tests. Expected values stand in spec/95_test_vectors.md (the rows named) or in the rules cited; the words
of the decode tests are written out bit by bit from 30_encoding.md R53 and R55 in the numbering of log 10. The theorems
test_witness_… show, for each statement that has hypotheses, values that meet them together. -/

namespace Sys2Proof.Tests

open Sys2Proof.Machine

/-! ### Helpers -/

def anyReq : Request := ⟨0#4, 1#64, 1#64, 0#64, 0#64⟩

/-- A small state: CNT 5, the given transaction, edges to come and record. -/
def st (u : Phase) (lines : List Edge) (record : List Entry) : State :=
  { cnt := 5#64, unit := u, inst := 0, draws := 0, lines := lines, asked := ⟨3, anyReq⟩, record := record }

def unitAfter : Host.Outcome State Fault Refusal → Option Phase
  | .next t => some t.unit
  | _ => none

def recordAfter : Host.Outcome State Fault Refusal → Option (List Entry)
  | .next t => some t.record
  | _ => none

def faultOf : Host.Outcome State Fault Refusal → Option Fault
  | .fault f => some f
  | _ => none

def idleSt : State := st .idle [] []

/-- The response of a request at CNT = 5. -/
def ans (i : Instr) : Option Response := answerAt idleSt i

def takeEdge (p : FaultPolicy) : Edge := ⟨false, none, false, true, p⟩
def offerEdge (o : Offer) : Edge := ⟨false, some o, false, false, .carryOn⟩
def waitEdge : Edge := ⟨false, none, false, false, .carryOn⟩
def rstEdge : Edge := ⟨true, some ⟨9, 0#4, .lit 1#64, .lit 1#64, .lit 0#64, .lit 0#64⟩, true, true, .carryOn⟩

/-- P1's first response, taken under tag 0. -/
def p1record : List Entry :=
  [.answered 0 ⟨0#4, 0xFFFFFFFFFFFFFFFF#64, 1#64, 0#64, 0#64⟩ ⟨some 0#64, none, some 1#1, .noFault⟩]

/-- P1's second statement, `w1: ADC 0xFFFFFFFFFFFFFFFF, 0, w0.FLAG`. -/
def p1second : Offer := ⟨1, 0#4, .lit 0xFFFFFFFFFFFFFFFF#64, .lit 0#64, .out 0 .flag, .lit 0#64⟩

/-- An idle instance without reset, at an edge that offers `o`. -/
def offers (s : State) (o : Offer) : Prop := s.unit = .idle ∧ s.edge.rst = false ∧ s.edge.req = some o

/-! ### Well-formedness: the one check, on the ill-formed terms next to its boundary -/

theorem test_wellFormed_refuses_reserved_7 : (Instr.reserved 7#4 0#64 0#64 0#64 0#64).wellFormed = false := by decide
theorem test_wellFormed_refuses_reserved_0 : (Instr.reserved 0#4 0#64 0#64 0#64 0#64).wellFormed = false := by decide
theorem test_wellFormed_accepts_reserved_8 : (Instr.reserved 8#4 0#64 0#64 0#64 0#64).wellFormed = true := by decide

/-! ### Decoding -/

/-- OP 0000: the bits are D, C, B, A, OP from the left. -/
theorem test_decode_adc :
    decodeWire 0b0000000000000000000000000000000000000000000000000000000000000000_0000000000000000000000000000000000000000000000000000000000000001_0000000000000000000000000000000000000000000000000000000000000010_0000000000000000000000000000000000000000000000000000000000000001_0000 = .ok (.adc 0x1#64 0x2#64 0x1#64 0x0#64) := by
  decide

/-- OP 0001: the bits are D, C, B, A, OP from the left. -/
theorem test_decode_sbb :
    decodeWire 0b0000000000000000000000000000000000000000000000000000000000000000_0000000000000000000000000000000000000000000000000000000000000000_0000111100001110000011010000110000001011000010100000100100001000_1000000000000000000000000000000000000000000000000000000000000001_0001 = .ok (.sbb 0x8000000000000001#64 0xF0E0D0C0B0A0908#64 0x0#64 0x0#64) := by
  decide

/-- OP 0010: the bits are D, C, B, A, OP from the left. -/
theorem test_decode_mulu :
    decodeWire 0b0000000000000000000000000000000000000000000000000000000000000000_0000000000000000000000000000000000000000000000000000000000000000_0000111100001110000011010000110000001011000010100000100100001000_1000000000000000000000000000000000000000000000000000000000000001_0010 = .ok (.mulu 0x8000000000000001#64 0xF0E0D0C0B0A0908#64 0x0#64 0x0#64) := by
  decide

/-- OP 0011: the bits are D, C, B, A, OP from the left. -/
theorem test_decode_muls :
    decodeWire 0b0000000000000000000000000000000000000000000000000000000000000000_0000000000000000000000000000000000000000000000000000000000000000_1111111111111111111111111111111111111111111111111111111111111010_1111111111111111111111111111111111111111111111111111111111111001_0011 = .ok (.muls 0xFFFFFFFFFFFFFFF9#64 0xFFFFFFFFFFFFFFFA#64 0x0#64 0x0#64) := by
  decide

/-- OP 0100: the bits are D, C, B, A, OP from the left. -/
theorem test_decode_divu :
    decodeWire 0b0000000000000000000000000000000000000000000000000000000000000000_0000000000000000000000000000000000000000000000000000000000000010_0000000000000000000000000000000000000000000000000000000000000000_0000000000000000000000000000000000000000000000000000000000000001_0100 = .ok (.divu 0x1#64 0x0#64 0x2#64 0x0#64) := by
  decide

/-- OP 0101: the bits are D, C, B, A, OP from the left. -/
theorem test_decode_rdcyc :
    decodeWire 0b0000000000000000000000000000000000000000000000000000000000000000_0000000000000000000000000000000000000000000000000000000000000000_0000000000000000000000000000000000000000000000000000000000000000_0000000000000000000000000000000000000000000000000000000000000000_0101 = .ok (.rdcyc 0x0#64 0x0#64 0x0#64 0x0#64) := by
  decide

/-- OP 0110: the bits are D, C, B, A, OP from the left. -/
theorem test_decode_vshl :
    decodeWire 0b0000000000000000000000000000000000000000000000000000000000000000_0000000000000000000000000000000000000000000000000000000000000100_0000111100001110000011010000110000001011000010100000100100001000_1000000000000000000000000000000000000000000000000000000000000001_0110 = .ok (.vshl 0x8000000000000001#64 0xF0E0D0C0B0A0908#64 0x4#64 0x0#64) := by
  decide

/-- OP 0111: the bits are D, C, B, A, OP from the left. -/
theorem test_decode_vsub :
    decodeWire 0b0000000100100011010001010110011110001001101010111100110111101111_1111111011011100101110101001100001110110010101000011001000010000_0000111100001110000011010000110000001011000010100000100100001000_1000000000000000000000000000000000000000000000000000000000000001_0111 = .ok (.vsub 0x8000000000000001#64 0xF0E0D0C0B0A0908#64 0xFEDCBA9876543210#64 0x123456789ABCDEF#64) := by
  decide

/-- OP 1001 is reserved (R56). -/
theorem test_decode_reserved :
    decodeWire 0b0000000100100011010001010110011110001001101010111100110111101111_1111111011011100101110101001100001110110010101000011001000010000_0000111100001110000011010000110000001011000010100000100100001000_1000000000000000000000000000000000000000000000000000000000000001_1001 =
      .ok (.reserved 9#4 0x8000000000000001#64 0xF0E0D0C0B0A0908#64 0xFEDCBA9876543210#64 0x123456789ABCDEF#64) := by
  decide

theorem test_decodeWire_refuses_bit_260 : decodeWire (1 <<< 260) = .error .beyondRequest := by decide
theorem test_decodeTableWord_reserved_15 :
    decodeTableWord 8 0x0F = some (.reserved 15#4 0#64 0#64 0#64 0#64) := by decide
theorem test_encode_divu : (encode (.divu 1#64 0#64 2#64 0#64)).toNat = 2 <<< 132 ||| 1 <<< 4 ||| 4 := by decide

/-! ### The operations (95_test_vectors.md §2) -/

/-- §2.1 rows 6 (E1 corrected, 90_conflicts.md C1) and 14. -/
theorem test_adc_rows_6_14 :
    ans (.adc 0xFFFFFFFFFFFFFFFF#64 1#64 1#64 0#64) = some ⟨some 1#64, none, some 1#1, .noFault⟩ ∧
    ans (.adc 0x75517334281385AB#64 0xCD1ABB46505D1510#64 1#64 0#64) =
      some ⟨some 0x426C2E7A78709ABC#64, none, some 1#1, .noFault⟩ := by decide
/-- §2.1 rows 10 and 12. -/
theorem test_adc_rows_10_12 :
    ans (.adc 0x7FFFFFFFFFFFFFFF#64 0#64 1#64 0#64) = some ⟨some 0x8000000000000000#64, none, some 0#1, .noFault⟩ ∧
    ans (.adc 5#64 7#64 0xFFFFFFFFFFFFFFFF#64 0#64) = some ⟨none, none, none, .carryInRange⟩ := by decide
/-- §2.2 rows 7 and 16. -/
theorem test_sbb_rows_7_16 :
    ans (.sbb 0#64 0xFFFFFFFFFFFFFFFF#64 1#64 0#64) = some ⟨some 0#64, none, some 1#1, .noFault⟩ ∧
    ans (.sbb 0x788007D80D41335F#64 0xA2B63867ADE330F7#64 1#64 0#64) =
      some ⟨some 0xD5C9CF705F5E0267#64, none, some 1#1, .noFault⟩ := by decide
/-- §2.2 rows 3 and 11. -/
theorem test_sbb_rows_3_11 :
    ans (.sbb 5#64 3#64 1#64 0#64) = some ⟨some 1#64, none, some 0#1, .noFault⟩ ∧
    ans (.sbb 1#64 1#64 2#64 0#64) = some ⟨none, none, none, .carryInRange⟩ := by decide
/-- §2.3 rows 3 (E2) and 9. -/
theorem test_mulu_rows_3_9 :
    ans (.mulu 0xFFFFFFFFFFFFFFFF#64 0xFFFFFFFFFFFFFFFF#64 0#64 0#64) =
      some ⟨some 1#64, some 0xFFFFFFFFFFFFFFFE#64, none, .noFault⟩ ∧
    ans (.mulu 0x123456789ABCDEF0#64 0x0FEDCBA987654321#64 0#64 0#64) =
      some ⟨some 0x2236D88FE5618CF0#64, some 0x0121FA00AD77D742#64, none, .noFault⟩ := by decide
/-- §2.4 rows 1, 4 and 9. -/
theorem test_muls_rows_1_4_9 :
    ans (.muls 0x8000000000000000#64 0x8000000000000000#64 0#64 0#64) =
      some ⟨some 0#64, some 0x4000000000000000#64, none, .noFault⟩ ∧
    ans (.muls 0x8000000000000000#64 0x7FFFFFFFFFFFFFFF#64 0#64 0#64) =
      some ⟨some 0x8000000000000000#64, some 0xC000000000000000#64, none, .noFault⟩ ∧
    ans (.muls 2#64 0xFFFFFFFFFFFFFFFD#64 0#64 0#64) =
      some ⟨some 0xFFFFFFFFFFFFFFFA#64, some 0xFFFFFFFFFFFFFFFF#64, none, .noFault⟩ := by decide
/-- §2.5 rows 1 (E3), 9 and 16. -/
theorem test_divu_rows_1_9_16 :
    ans (.divu 1#64 0#64 2#64 0#64) = some ⟨some 0x8000000000000000#64, some 0#64, none, .noFault⟩ ∧
    ans (.divu 0x0123456789ABCDEF#64 0xFEDCBA9876543210#64 0x1000000000000000#64 0#64) =
      some ⟨some 0x123456789ABCDEFF#64, some 0x0EDCBA9876543210#64, none, .noFault⟩ ∧
    ans (.divu 0x047211D4D4088971#64 0x9AAD1F05235407AE#64 0x4942F4A3AB72EA37#64 0#64) =
      some ⟨some 0x0F88CA6A5F51E1E7#64, some 0x31394098EA61590D#64, none, .noFault⟩ := by decide
/-- §2.5 rows 11 and 14; §2.10 row 2. -/
theorem test_divu_faults :
    ans (.divu 0xFFFFFFFFFFFFFFFF#64 0xFFFFFFFFFFFFFFFF#64 0#64 0#64) = some ⟨none, none, none, .divideByZero⟩ ∧
    ans (.divu 0xFFFFFFFFFFFFFFFF#64 0#64 0xFFFFFFFFFFFFFFFF#64 0#64) = some ⟨none, none, none, .divideOverflow⟩ ∧
    ans (.divu 7#64 0#64 0#64 0#64) = some ⟨none, none, none, .divideByZero⟩ := by decide
/-- §2.6 row 2: ignored ports cause no fault; at CNT = 5 the value read is 5 (R93). -/
theorem test_rdcyc_row_2 :
    ans (.rdcyc 0xFFFFFFFFFFFFFFFF#64 0xFFFFFFFFFFFFFFFF#64 0xFFFFFFFFFFFFFFFF#64 0xFFFFFFFFFFFFFFFF#64) =
      some ⟨some 5#64, none, none, .noFault⟩ := by decide
/-- §2.7 rows 6 and 10. -/
theorem test_vshl_rows_6_10 :
    ans (.vshl 0x123456789ABCDEF0#64 0x0FEDCBA987654321#64 8#64 0#64) =
      some ⟨some 0x3456789ABCDEF000#64, some 0xEDCBA98765432100#64, none, .noFault⟩ ∧
    ans (.vshl 0xB399EE29A34E100D#64 0x10F75DB9B604459C#64 0x2A#64 0#64) =
      some ⟨some 0x3840340000000000#64, some 0x1116700000000000#64, none, .noFault⟩ := by decide
/-- §2.7 rows 3 and 7: the last amount that shifts and the first that faults. -/
theorem test_vshl_rows_3_7 :
    ans (.vshl 1#64 1#64 0x3F#64 0#64) =
      some ⟨some 0x8000000000000000#64, some 0x8000000000000000#64, none, .noFault⟩ ∧
    ans (.vshl 1#64 1#64 0x40#64 0#64) = some ⟨none, none, none, .shiftRange⟩ := by decide
/-- §2.8 rows 2 and 8. -/
theorem test_vsub_rows_2_8 :
    ans (.vsub 0#64 5#64 1#64 0#64) = some ⟨some 0xFFFFFFFFFFFFFFFF#64, some 5#64, none, .noFault⟩ ∧
    ans (.vsub 0xAC997F6649118DC2#64 0x04376E57386C067B#64 0xCDA013ABD5C427A2#64 0x589B61B83F9236E2#64) =
      some ⟨some 0xDEF96BBA734D6620#64, some 0xAB9C0C9EF8D9CF99#64, none, .noFault⟩ := by decide
/-- §2.9 rows 1 and 2. -/
theorem test_reserved_rows_1_2 :
    ans (decodeReq ⟨0x8#4, 0#64, 0#64, 0#64, 0#64⟩) = some ⟨none, none, none, .illegalOp⟩ ∧
    ans (decodeReq ⟨0xF#4, 0xFFFFFFFFFFFFFFFF#64, 0xFFFFFFFFFFFFFFFF#64, 0xFFFFFFFFFFFFFFFF#64,
      0xFFFFFFFFFFFFFFFF#64⟩) = some ⟨none, none, none, .illegalOp⟩ := by decide

/-! ### One edge -/

/-- P1, statement 2: the FLAG of `w0` arrives on port C, zero-extended (R64, R68). -/
theorem test_accept_resolves_flag :
    unitAfter (step (st .idle [offerEdge p1second] p1record)) =
      some (.inFlight ⟨0#4, 0xFFFFFFFFFFFFFFFF#64, 0#64, 1#64, 0#64⟩) := by decide
/-- ADC defines no R1 (R62): a reference to it is a fault (R27). -/
theorem test_accept_faults_on_undefined_port :
    faultOf (step (st .idle [offerEdge ⟨1, 0#4, .out 0 .r1, .lit 0#64, .lit 0#64, .lit 0#64⟩] p1record)) =
      some (.portHoldsNoValue 0 .r1) := by decide
/-- A reference to a response that was never taken (R64, R128). -/
theorem test_accept_faults_on_missing_response :
    faultOf (step (st .idle [offerEdge p1second] [])) = some (.noSuchResponse 0) := by decide
/-- Log 16: a port without a value faults also on ADC's ignored D, and on a reserved OP's A. -/
theorem test_accept_faults_on_ignored_port :
    faultOf (step (st .idle [offerEdge ⟨1, 0#4, .lit 0#64, .lit 0#64, .lit 0#64, .out 0 .r1⟩] p1record)) =
      some (.portHoldsNoValue 0 .r1) ∧
    faultOf (step (st .idle [offerEdge ⟨1, 8#4, .out 0 .r1, .lit 0#64, .lit 0#64, .lit 0#64⟩] p1record)) =
      some (.portHoldsNoValue 0 .r1) := by decide
/-- An offer is not accepted while a request is in flight: `req_ready` = 0 (R25). -/
theorem test_busy_ignores_offer :
    unitAfter (step (st (.inFlight anyReq) [offerEdge p1second] p1record)) = some (.inFlight anyReq) := by decide
/-- `ADD 1, 1` (P5, statement 4) placed by the host's function is answered by the next step. -/
theorem test_withFetchWord_runs :
    unitAfter (step (State.reset.withFetchWord 140 (1 <<< 68 ||| 1 <<< 4))) =
      some (.presented ⟨some 2#64, none, some 0#1, .noFault⟩) := by decide
/-- A taken response is recorded under the tag of its request. -/
theorem test_take_records :
    recordAfter (step (st (.presented (flagged 2#64 0#1)) [takeEdge .stop] [])) =
      some [.answered 3 anyReq (flagged 2#64 0#1)] := by decide
/-- R123: the fault outcome names the operation and the code; P5: a requester that goes on is not stopped. -/
theorem test_take_fault_by_policy :
    faultOf (step (st (.presented (raiseFault .carryInRange)) [takeEdge .stop] [])) =
      some (.faultResponse .adc .carryInRange) ∧
    unitAfter (step (st (.presented (raiseFault .carryInRange)) [takeEdge .carryOn] [])) = some .idle := by decide
/-- R124: reset wins over a response that is ready to be taken and over an offer. -/
theorem test_reset_edge_wins :
    unitAfter (step (st (.presented (flagged 2#64 0#1)) [rstEdge] [])) = some .idle ∧
    recordAfter (step (st (.presented (flagged 2#64 0#1)) [rstEdge] [])) = some [.wasReset] := by decide
/-- U8: FCODE 6 in a recorded response is refused; U7: bits on a port the operation does not define are no value. -/
theorem test_readRecorded :
    (match readRecorded .adc ⟨1#64, 2#64, 1#1, 6#3⟩ with | .refused r => some r | _ => none) =
      some (.reservedFcode 6#3) ∧
    (match readRecorded .adc ⟨1#64, 2#64, 1#1, 0#3⟩ with | .next r => some r | _ => none) =
      some (flagged 1#64 1#1) := by decide

/-! ### Assembler (30_encoding.md R63-R66) -/

/-- P1's statement 2 as text, with a label, a comment and a mnemonic in small letters. -/
theorem test_parseLine_p1 :
    parseLine "w1: adc 0xFFFFFFFFFFFFFFFF, 0, w0.FLAG ; carry".toList =
      .ok (some ⟨some ['w', '1'], .adc, [.lit 0xFFFFFFFFFFFFFFFF#64, .lit 0#64, .ref ['w', '0'] .flag]⟩) := by decide
/-- P6: `MULS -3, 5` (R64: -n stands for bits_64(-n)); R64's range; a wrong count; no mnemonic. -/
theorem test_parseLine_more :
    parseLine "MULS -3, 5".toList = .ok (some ⟨none, .muls, [.lit 0xFFFFFFFFFFFFFFFD#64, .lit 5#64]⟩) ∧
    parseLine "NEG 18446744073709551616".toList =
      .error (.literalOutOfRange "18446744073709551616".toList) ∧
    parseLine "RDCYC 1".toList = .error (.operandCount .rdcyc 1) ∧
    parseLine "FOO".toList = .error (.unknownMnemonic ['F', 'O', 'O']) ∧
    parseLine "  ; nothing".toList = .ok none := by decide
/-- P1's first two statements assemble; a reference to an output that ADC does not define does not (R64). -/
theorem test_assemble_p1 :
    assemble [⟨some ['w'], .adc, [.lit 1#64, .lit 2#64, .lit 0#64]⟩, ⟨none, .add, [.ref ['w'] .r0, .lit 1#64]⟩] =
      .ok [⟨0, 0#4, .lit 1#64, .lit 2#64, .lit 0#64, .lit 0#64⟩, ⟨1, 0#4, .out 0 .r0, .lit 1#64, .lit 0#64, .lit 0#64⟩] ∧
    assemble [⟨some ['w'], .adc, [.lit 1#64, .lit 2#64, .lit 0#64]⟩, ⟨none, .neg, [.ref ['w'] .r1]⟩] =
      .error (.undefinedOutput ['w'] .r1) := by decide
/-- R65's written form: P2's statement 1. -/
theorem test_requestText_p2 :
    (requestOf .sbb [0#64, 1#64, 0#64]).map requestText =
      some ("OP=0x1 A=0x0000000000000000 B=0x0000000000000001 C=0x0000000000000000 " ++
        "D=0x0000000000000000").toList := by decide

/-! ### Witnesses for the hypotheses of the statements -/

theorem test_witness_DecodeAfterEncodeGivesTheCommand :
    (Instr.reserved 8#4 1#64 2#64 3#64 4#64).wellFormed = true ∧ (Instr.adc 1#64 2#64 1#64 4#64).wellFormed = true := by
  decide
theorem test_witness_EveryOpValueSelectsItsOperation : 8 ≤ (8#4).toNat ∧ 8 ≤ (15#4).toNat := by decide
theorem test_witness_StepRunsTheRequestInFlight :
    (st (.inFlight anyReq) [] []).unit = .inFlight anyReq ∧ (st (.inFlight anyReq) [] []).edge.rst = false ∧
    (st (.inFlight anyReq) [] []).edge.done = true ∧ decodeReq anyReq = .adc 1#64 1#64 0#64 0#64 := by decide
theorem test_witness_PlacedWordIsRunByTheNextStep :
    decodeTableWord 8 5 = some (.rdcyc 0#64 0#64 0#64 0#64) := by decide
theorem test_witness_IdleEdgeAcceptsWhatIsOffered :
    (idleSt.unit = .idle ∧ idleSt.edge.rst = false ∧ idleSt.edge.req = none) ∧
    offers (st .idle [offerEdge p1second] p1record) p1second ∧
    Carries p1record p1second ⟨0#4, 0xFFFFFFFFFFFFFFFF#64, 0#64, 1#64, 0#64⟩ :=
  ⟨⟨rfl, rfl, rfl⟩, ⟨rfl, rfl, rfl⟩, rfl, rfl, rfl,
    ⟨_, ⟨[], _, [], rfl, fun _ _ h => by cases h⟩, 1#1, rfl, rfl⟩, rfl⟩
theorem test_witness_AcceptanceNeedsValidAndReady :
    (∃ t req, step (st .idle [offerEdge p1second] p1record) = .next t ∧ t.unit = .inFlight req) ∧
    (∃ t req, step (st (.inFlight anyReq) [waitEdge] []) = .next t ∧ t.unit = .inFlight req) :=
  ⟨⟨_, _, rfl, rfl⟩, ⟨_, _, rfl, rfl⟩⟩
theorem test_witness_ResponseIsHeldUntilTaken :
    ((st (.presented (flagged 2#64 0#1)) [] []).edge.rst = false ∧
      (st (.presented (flagged 2#64 0#1)) [] []).edge.rspReady = false) ∧
    ((st (.presented (flagged 2#64 0#1)) [takeEdge .stop] []).edge.rspReady = true ∧
      (flagged 2#64 0#1).fcode = .noFault) ∧
    ((st (.presented (raiseFault .illegalOp)) [takeEdge .carryOn] []).edge.rspReady = true ∧
      (st (.presented (raiseFault .illegalOp)) [takeEdge .carryOn] []).edge.onFault = .carryOn) := by decide
theorem test_witness_ResponsesAreNeverLostOrReordered :
    (∃ t, step (st (.presented (flagged 2#64 0#1)) [waitEdge] []) = .next t) ∧
    (∃ t, step (st (.presented (flagged 2#64 0#1)) [rstEdge] []) = .next t) ∧
    (∃ t, step (st (.presented (flagged 2#64 0#1)) [takeEdge .stop] []) = .next t) :=
  ⟨⟨_, rfl⟩, ⟨_, rfl⟩, ⟨_, rfl⟩⟩
theorem test_witness_NotReadyUntilTheResponseIsTaken :
    (∃ t, step (st (.presented (flagged 2#64 0#1)) [takeEdge .stop] []) = .next t ∧ t.reqReady = true) ∧
    (∃ t, step (st (.inFlight anyReq) [rstEdge] []) = .next t ∧ t.reqReady = true) :=
  ⟨⟨_, rfl, rfl⟩, ⟨_, rfl, rfl⟩⟩
theorem test_witness_OutputsHoldValuesOnlyWhileValid :
    idleSt.rspValid = false ∧ (st (.presented (flagged 2#64 0#1)) [] []).rspValid = true ∧
    (st (.presented (flagged 2#64 0#1)) [rstEdge] []).rspValid = false := by decide
theorem test_witness_ResetEdgeDiscardsAndSetsCnt : (st (.inFlight anyReq) [rstEdge] []).edge.rst = true := by decide
theorem test_witness_ReadyFromResetUntilAcceptance :
    (∃ t, step (st (.inFlight anyReq) [rstEdge] []) = .next t ∧ t.edge.rst = false) ∧
    (∃ t, step idleSt = .next t ∧ t.edge.rst = false ∧ idleSt.edge.rst = false ∧ idleSt.unit = .idle) :=
  ⟨⟨_, rfl, rfl⟩, ⟨_, rfl, rfl, rfl, rfl⟩⟩
theorem test_witness_CntNeverDecreasesWithoutReset :
    ∃ t, step idleSt = .next t ∧ idleSt.edge.rst = false := ⟨_, rfl, rfl⟩

/-- A state in which one RDCYC value, 4, is recorded, and a newer one, 5, is presented. -/
def countedSt : State :=
  { st (.presented (single 5#64)) [waitEdge] [.answered 0 ⟨5#4, 0#64, 0#64, 0#64, 0#64⟩ (single 4#64)] with
    asked := ⟨1, ⟨5#4, 0#64, 0#64, 0#64, 0#64⟩⟩ }

theorem test_witness_RdcycValuesStayOrdered :
    countedSt.CountsOrdered ∧ ∃ t, step countedSt = .next t := by
  have h : countedSt.presentedCount ++ rdcycValues countedSt.record = [5#64, 4#64] := rfl
  refine ⟨⟨fun req h => by simp [countedSt, st] at h, ?_, ?_⟩, ⟨_, rfl⟩⟩
  · rw [h]; simp
  · rw [h]; simp [countedSt, st]
theorem test_witness_AdcGivesTheExactSum : (0#64).toNat ≤ 1 ∧ (1#64).toNat ≤ 1 ∧ 2 ≤ (2#64).toNat := by decide
theorem test_witness_SbbGivesTheExactDifference : (0#64).toNat ≤ 1 ∧ (1#64).toNat ≤ 1 ∧ 2 ≤ (2#64).toNat := by decide
theorem test_witness_DivuGivesQuotientAndRemainder :
    (6#64).toNat < (7#64).toNat ∧ (0#64 : Word) = 0#64 ∧ ((7#64 : Word) ≠ 0#64 ∧ (7#64).toNat ≤ (7#64).toNat) := by
  decide
theorem test_witness_VshlShiftsEachLane : (63#64).toNat ≤ 63 ∧ 64 ≤ (64#64).toNat := by decide
theorem test_witness_ReservedOpAnswersIllegalOp : 8 ≤ (Request.mk 8#4 0#64 0#64 0#64 0#64).op.toNat := by decide
theorem test_witness_FaultExactlyOutsideTheDomain :
    inDomain (.vshl 1#64 1#64 63#64 0#64) ∧ ¬ inDomain (.vshl 1#64 1#64 64#64 0#64) := by
  constructor <;> simp only [inDomain] <;> decide
theorem test_witness_FaultsAreChosenInOrder :
    8 ≤ (Request.mk 9#4 0#64 0#64 0#64 0#64).op.toNat ∧
    ((Request.mk 4#4 7#64 0#64 0#64 0#64).op.toNat = 4 ∧ uint (Request.mk 4#4 7#64 0#64 0#64 0#64).c = 0) ∧
    (uint (Request.mk 4#4 7#64 0#64 7#64 0#64).c ≠ 0 ∧
      uint (Request.mk 4#4 7#64 0#64 7#64 0#64).a ≥ uint (Request.mk 4#4 7#64 0#64 7#64 0#64).c) := by decide
theorem test_witness_ResponseDependsOnTheRequestAlone :
    (Instr.adc 1#64 1#64 0#64 0#64).name ≠ .rdcyc := by decide
theorem test_witness_TakingAFaultResponse :
    (raiseFault .shiftRange).fcode ≠ .noFault ∧
    ((st (.presented (raiseFault .shiftRange)) [takeEdge .carryOn] []).edge.rst = false ∧
      (st (.presented (raiseFault .shiftRange)) [takeEdge .carryOn] []).edge.rspReady = true ∧
      (st (.presented (raiseFault .shiftRange)) [takeEdge .carryOn] []).edge.onFault = .carryOn) ∧
    (st (.presented (raiseFault .shiftRange)) [takeEdge .stop] []).edge.onFault = .stop := by decide
/-- An idle state after P1's first response, at which an offer with these four operands is made. -/
def offeredSt (a b c d : Source) : State := st .idle [offerEdge ⟨1, 7#4, a, b, c, d⟩] p1record

/-- The offer stands at each of the four ports behind readable operands, the FLAG of transaction 0 among them. -/
theorem test_witness_ReadingAPortWithoutValueFaults :
    (findTagged 0 p1record = some ⟨some 0#64, none, some 1#1, .noFault⟩ ∧
      (Response.mk (some 0#64) none (some 1#1) .noFault).port .r1 = none) ∧
    (sourceValue p1record (.out 0 .flag) = .ok 1#64 ∧ sourceValue p1record (.lit 3#64) = .ok 3#64) ∧
    offers (offeredSt (.out 0 .r1) (.lit 3#64) (.lit 3#64) (.lit 3#64))
      ⟨1, 7#4, .out 0 .r1, .lit 3#64, .lit 3#64, .lit 3#64⟩ ∧
    offers (offeredSt (.out 0 .flag) (.out 0 .r1) (.lit 3#64) (.lit 3#64))
      ⟨1, 7#4, .out 0 .flag, .out 0 .r1, .lit 3#64, .lit 3#64⟩ ∧
    offers (offeredSt (.out 0 .flag) (.lit 3#64) (.out 0 .r1) (.lit 3#64))
      ⟨1, 7#4, .out 0 .flag, .lit 3#64, .out 0 .r1, .lit 3#64⟩ ∧
    offers (offeredSt (.out 0 .flag) (.lit 3#64) (.lit 3#64) (.out 0 .r1))
      ⟨1, 7#4, .out 0 .flag, .lit 3#64, .lit 3#64, .out 0 .r1⟩ :=
  ⟨⟨rfl, rfl⟩, ⟨rfl, rfl⟩, ⟨rfl, rfl, rfl⟩, ⟨rfl, rfl, rfl⟩, ⟨rfl, rfl, rfl⟩, ⟨rfl, rfl, rfl⟩⟩
theorem test_witness_ReferenceToAnUntakenResponseFaults :
    findTagged 5 p1record = none ∧
    (sourceValue p1record (.out 0 .flag) = .ok 1#64 ∧ sourceValue p1record (.lit 3#64) = .ok 3#64) ∧
    offers (offeredSt (.out 5 .r0) (.lit 3#64) (.lit 3#64) (.lit 3#64))
      ⟨1, 7#4, .out 5 .r0, .lit 3#64, .lit 3#64, .lit 3#64⟩ ∧
    offers (offeredSt (.out 0 .flag) (.out 5 .r0) (.lit 3#64) (.lit 3#64))
      ⟨1, 7#4, .out 0 .flag, .out 5 .r0, .lit 3#64, .lit 3#64⟩ ∧
    offers (offeredSt (.out 0 .flag) (.lit 3#64) (.out 5 .r0) (.lit 3#64))
      ⟨1, 7#4, .out 0 .flag, .lit 3#64, .out 5 .r0, .lit 3#64⟩ ∧
    offers (offeredSt (.out 0 .flag) (.lit 3#64) (.lit 3#64) (.out 5 .r0))
      ⟨1, 7#4, .out 0 .flag, .lit 3#64, .lit 3#64, .out 5 .r0⟩ :=
  ⟨rfl, ⟨rfl, rfl⟩, ⟨rfl, rfl, rfl⟩, ⟨rfl, rfl, rfl⟩, ⟨rfl, rfl, rfl⟩, ⟨rfl, rfl, rfl⟩⟩
theorem test_witness_ChainedFlagNeverFaults :
    ans (.adc 0xFFFFFFFFFFFFFFFF#64 1#64 0#64 0#64) = some (flagged 0#64 1#1) ∧
    (flagged 0#64 1#1).port .flag = some 1#64 ∧ ans (.sbb 1#64 1#64 0#64 0#64) = some (flagged 0#64 0#1) ∧
    (flagged 0#64 0#1).port .flag = some 0#64 := by decide
theorem test_witness_RecordedResponsesAreReadByTheirCode :
    6 ≤ (Recorded.mk 0#64 0#64 0#1 6#3).fcode.toNat ∧ (Recorded.mk 0#64 0#64 0#1 0#3).fcode = 0#3 ∧
    1 ≤ (Recorded.mk 0#64 0#64 0#1 1#3).fcode.toNat ∧ (Recorded.mk 0#64 0#64 0#1 5#3).fcode.toNat ≤ 5 := by decide
theorem test_witness_PseudoInstructionsMeanWhatTheySay : (1#64 : Word) ≠ 0#64 := by decide
/-- One earlier statement, `w0: ADC …`, under tag 0. -/
def p1earlier : List Earlier := [⟨['w', '0'], 0, .adc⟩]

theorem test_witness_StatementOperandsStandInPortOrder :
    (AsmOperand.ref ['w', '0'] .flag).source p1earlier = .ok (.out 0 .flag) ∧
    (AsmOperand.lit 3#64).source p1earlier = .ok (.lit 3#64) ∧
    requestOf .vneg [1#64, 2#64] = some ⟨7#4, 0#64, 0#64, 1#64, 2#64⟩ ∧
    ([0#64] : List Word).length ≠ Mnemonic.adc.arity ∧
    (Statement.mk none .adc [.lit 3#64]).operands.length ≠ (Statement.mk none .adc [.lit 3#64]).mnemonic.arity :=
  ⟨rfl, rfl, rfl, by decide, by decide⟩
/-- Two earlier statements with one label: the nearer is meant; ADC defines FLAG and no R1. -/
theorem test_witness_ReferencesNameEarlierTransactions :
    p1earlier ++ [⟨['w', '0'], 9, .vsub⟩] = [] ++ ⟨['w', '0'], 0, .adc⟩ :: [⟨['w', '0'], 9, .vsub⟩] ∧
    definesPort .adc .flag = true ∧ definesPort .adc .r1 = false ∧
    ∀ e ∈ p1earlier, e.label ≠ ['x'] := by decide
theorem test_witness_AssembledStatementsReferToEarlierOnes :
    ∃ offers, assemble [⟨some ['w', '0'], .adc, [.lit 1#64, .lit 2#64, .lit 0#64]⟩,
      ⟨none, .sub, [.ref ['w', '0'] .flag, .lit 3#64]⟩] = .ok offers := ⟨_, rfl⟩
/-- `SUB w0.FLAG, 3` offers what `SBB w0.FLAG, 3, 0` does (R66). -/
theorem test_pseudo_statement_with_reference :
    Statement.offer p1earlier 1 ⟨none, .sub, [.ref ['w', '0'] .flag, .lit 3#64]⟩ =
      .ok ⟨1, 1#4, .out 0 .flag, .lit 3#64, .lit 0#64, .lit 0#64⟩ := rfl
theorem test_witness_AdcIsTheTwoStageAlgorithm : (0#64).toNat ≤ 1 ∧ (1#64).toNat ≤ 1 := by decide
theorem test_witness_SbbIsTheTwoStageAlgorithm : (0#64).toNat ≤ 1 ∧ (1#64).toNat ≤ 1 := by decide
theorem test_witness_DomainTestIsQuotientFits : uint 6#64 < uint 7#64 ∧ ¬ uint 7#64 < uint 7#64 := by decide
theorem test_witness_DivuUndoesMulu : uint 0#64 < uint 1#64 ∧ (1#64 : Word) ≠ 0#64 := by decide
theorem test_witness_SbbIsAdcOfTheComplement : (0#64).toNat ≤ 1 ∧ (1#64).toNat ≤ 1 := by decide
theorem test_witness_LanesMatchTheScalarOperations : (0#64).toNat ≤ 63 ∧ (63#64).toNat ≤ 63 := by decide
theorem test_witness_RequestInFlightIsAnswered :
    (st (.inFlight anyReq) [waitEdge, waitEdge] []).unit = .inFlight anyReq ∧
    ∀ e ∈ (st (.inFlight anyReq) [waitEdge, waitEdge] []).lines, e.rst = false := by decide
theorem test_witness_StepKeepsResponsesConsistent :
    (st (.inFlight anyReq) [] []).Consistent ∧ ∃ t, step (st (.inFlight anyReq) [] []) = .next t := by
  refine ⟨⟨fun req h => ?_, fun rsp h => ?_, fun tag req rsp h => ?_⟩, ⟨_, rfl⟩⟩
  · simpa [st] using h
  · simp [st] at h
  · simp [st] at h
theorem test_witness_InstancesShareNothing :
    ∃ sys', Instances.stepAt ⟨idleSt, [idleSt]⟩ 1 = .next sys' := ⟨_, rfl⟩
theorem test_witness_SystemHasAtLeastOneInstance : (2 : Nat) ≤ 2 := by decide

/-- A requester that stops ends the system's step, named with its instance (log 14); no third instance exists. -/
theorem test_system_stops_with_its_instance :
    (Instances.mk idleSt [st (.presented (raiseFault .illegalOp)) [takeEdge .stop] []]).stepAt 1 =
      .fault (1, .faultResponse .adc .illegalOp) ∧
    (Instances.mk idleSt [idleSt]).stepAt 2 = .refused (.noInstance 2) := ⟨rfl, rfl⟩

end Sys2Proof.Tests
end

section
/-! PROOFS. 00_scope.md: the atomic transaction (R16) and the instances of a system (R11). -/

namespace Sys2Proof.Machine

/-! ### An edge with a request in flight -/

/-- 10_state.md R25 at an edge without reset: the request in flight is answered once its latency is over, and waits
until then. -/
theorem step_of_inFlight {s : State} {req : Request} (hunit : s.unit = .inFlight req) (hrst : s.edge.rst = false) :
    step s = if s.edge.done then exec (decodeReq req) s.runEdge else .next s.runEdge := by
  simp [step, hunit, hrst]

/-- The frame of an edge without reset: CNT takes its draw, the edge and the draw are used up, nothing else changes. -/
theorem State.runEdge_eq (s : State) :
    s.runEdge = { s with cnt := growCnt s.cnt (Config.cntAdvance s.inst s.draws), lines := s.lines.tail,
                         draws := s.draws + 1 } := rfl

/-- Settles O6: a request in flight whose latency is over is answered by the meaning of its decoded operation. -/
theorem stepRunsTheRequestInFlight : Obligations.StepRunsTheRequestInFlight := by
  rintro s req i hunit hrst hdone rfl
  have hstep : step s = exec (decodeReq req) s.runEdge := by
    rw [step_of_inFlight hunit hrst, if_pos hdone]
  exact ⟨hstep, s.runEdge_eq⟩

/-! ### The instances of a system -/

/-- The numbers that name an instance are those below N_INST (00_scope.md R11): 0 for the first, the others after it. -/
theorem Instances.exists_at?_iff (sys : Instances) (k : Nat) : (∃ s, sys.at? k = some s) ↔ k < sys.count := by
  cases k with
  | zero => simp [Instances.at?, Instances.count]
  | succ k => simp [Instances.at?, Instances.count, ← Option.isSome_iff_exists]

@[simp] theorem Instances.count_reset (n : Nat) : (Instances.reset n).count = n + 1 := by
  simp [Instances.count, Instances.reset]

/-- Each instance of a system right after reset is one instance after reset, with draws of its own
(70_reset_and_hazards.md R125; log 14). -/
theorem Instances.at?_reset {n k : Nat} (hk : k ≤ n) : (Instances.reset n).at? k = some (State.resetOf k) := by
  cases k with
  | zero => rfl
  | succ k =>
    have hlt : k < n := hk
    simp [Instances.at?, Instances.reset, hlt]

/-- Settles O57: N_INST is at least 1, and reset gives each instance its own state after reset. -/
theorem systemHasAtLeastOneInstance : Obligations.SystemHasAtLeastOneInstance :=
  ⟨fun sys => ⟨sys.count_pos, sys.exists_at?_iff⟩,
   fun n _ => ⟨Instances.count_reset n, Instances.at?_reset⟩⟩

end Sys2Proof.Machine
end

section
/-! PROOFS. 10_state.md R25: everything one rising edge can do, as one relation tied to `step`, and the handshake's
statements read off its cases. -/

namespace Sys2Proof.Machine

/-! ### The response of an operation -/

/-- The one response an operation gives, as a function of the instruction and of the value CNT holds when it is answered
(10_state.md R39; `exec_eq_present` ties it to `exec`). -/
def responseOf : Instr → Word → Response
  | .adc a b c _, _ => adcResponse a b c
  | .sbb a b c _, _ => sbbResponse a b c
  | .mulu a b _ _, _ => muluResponse a b
  | .muls a b _ _, _ => mulsResponse a b
  | .divu a b c _, _ => divuResponse a b c
  | .rdcyc _ _ _ _, cnt => single cnt
  | .vshl a b c _, _ => vshlResponse a b c
  | .vsub a b c d, _ => vsubResponse a b c d
  | .reserved _ _ _ _ _, _ => raiseFault .illegalOp

theorem exec_eq_present (i : Instr) (s : State) : exec i s = .next (s.present (responseOf i s.cnt)) := by
  cases i <;> rfl

theorem responseOf_of_rdcyc {i : Instr} (hi : i.name = .rdcyc) (cnt : Word) : responseOf i cnt = single cnt := by
  cases i with
  | rdcyc a b c d => rfl
  | _ => cases hi

theorem responseOf_of_ne_rdcyc {i : Instr} (hi : i.name ≠ .rdcyc) (cnt cnt' : Word) :
    responseOf i cnt = responseOf i cnt' := by
  cases i with
  | rdcyc a b c d => exact absurd rfl hi
  | _ => rfl

/-- Settles O33: only RDCYC's response reads CNT, and it reads nothing else. -/
theorem responseDependsOnTheRequestAlone : Obligations.ResponseDependsOnTheRequestAlone := by
  refine ⟨fun i hi => ⟨responseOf i 0#64, fun s => ?_⟩, single, fun a b c d s => exec_eq_present _ s⟩
  rw [responseOf_of_ne_rdcyc hi 0#64 s.cnt]
  exact exec_eq_present i s

/-- Settles O29: an operation's response does not mention the ports it ignores. -/
theorem ignoredPortsHaveNoEffect : Obligations.IgnoredPortsHaveNoEffect := by
  intro a b c d a' b' c' d' op s
  simp only [exec_eq_present, responseOf, and_self]

/-! ### Everything one edge can do -/

/-- The edges that lead from `s` to a next state, by what the instance is doing (10_state.md R25,
70_reset_and_hazards.md R124; `step_eq_next_iff` ties it to `step`). -/
inductive State.EdgeTo (s : State) : State → Prop
  /-- Reset wins over everything. -/
  | reset (hrst : s.edge.rst = true) : s.EdgeTo s.resetEdge
  /-- Idle, and nothing is offered. -/
  | idles (hrst : s.edge.rst = false) (hunit : s.unit = .idle) (hreq : s.edge.req = none) : s.EdgeTo s.runEdge
  /-- Idle, and an offer is accepted. -/
  | accepts {o : Offer} {req : Request} (hrst : s.edge.rst = false) (hunit : s.unit = .idle)
      (hreq : s.edge.req = some o) (hread : resolveOffer s.record o = .ok req) :
      s.EdgeTo { s.runEdge with unit := .inFlight req, asked := ⟨o.tag, req⟩ }
  /-- The request in flight is not answered yet. -/
  | waits {req : Request} (hrst : s.edge.rst = false) (hunit : s.unit = .inFlight req)
      (hdone : s.edge.done = false) : s.EdgeTo s.runEdge
  /-- The request in flight gets its response. -/
  | answers {req : Request} (hrst : s.edge.rst = false) (hunit : s.unit = .inFlight req)
      (hdone : s.edge.done = true) :
      s.EdgeTo (s.runEdge.present (responseOf (decodeReq req) s.runEdge.cnt))
  /-- The presented response is not taken yet. -/
  | holds {rsp : Response} (hrst : s.edge.rst = false) (hunit : s.unit = .presented rsp)
      (hready : s.edge.rspReady = false) : s.EdgeTo s.runEdge
  /-- The presented response is taken, by a requester that does not stop on it. -/
  | takes {rsp : Response} (hrst : s.edge.rst = false) (hunit : s.unit = .presented rsp)
      (hready : s.edge.rspReady = true) (hgo : rsp.fcode = .noFault ∨ s.edge.onFault = .carryOn) :
      s.EdgeTo { s.runEdge with unit := .idle, record := .answered s.asked.tag s.asked.req rsp :: s.record }

theorem State.edgeTo_of_step {s t : State} (h : step s = .next t) : s.EdgeTo t := by
  obtain ⟨hrst, rfl⟩ | ⟨hrst, ⟨hunit, hacc⟩ | ⟨req, hunit, ⟨hdone, hexec⟩ | ⟨hdone, rfl⟩⟩ | ⟨rsp, hunit, htake⟩⟩ :=
    step_cases h
  · exact .reset hrst
  · obtain ⟨hreq, rfl⟩ | ⟨o, req, hreq, hread, rfl⟩ := State.accept_cases hacc
    · exact .idles hrst hunit hreq
    · exact .accepts hrst hunit hreq hread
  · rw [exec_eq_present, Host.Outcome.next.injEq] at hexec
    exact hexec ▸ .answers hrst hunit hdone
  · exact .waits hrst hunit hdone
  · obtain ⟨hready, rfl⟩ | ⟨hready, hgo, rfl⟩ := State.take_cases htake
    · exact .holds hrst hunit hready
    · exact .takes hrst hunit hready hgo

theorem State.EdgeTo.step_eq {s t : State} (h : s.EdgeTo t) : step s = .next t := by
  cases h with
  | reset hrst => simp [step, hrst]
  | idles hrst hunit hreq => simp [step, hrst, hunit, hreq, State.accept]
  | accepts hrst hunit hreq hread => simp [step, hrst, hunit, hreq, State.accept, hread]
  | waits hrst hunit hdone => simp [step_of_inFlight hunit hrst, hdone]
  | answers hrst hunit hdone => simp [step_of_inFlight hunit hrst, hdone, exec_eq_present]
  | holds hrst hunit hready => simp [step, hrst, hunit, State.take, hready]
  | takes hrst hunit hready hgo =>
    obtain hgo | hgo := hgo <;> simp [step, hrst, hunit, State.take, hready, hgo]

theorem step_eq_next_iff {s t : State} : step s = .next t ↔ s.EdgeTo t :=
  ⟨State.edgeTo_of_step, State.EdgeTo.step_eq⟩

/-! ### Acceptance -/

/-- Settles O8: an idle edge reads exactly the request that is offered, and accepts it. -/
theorem idleEdgeAcceptsWhatIsOffered : Obligations.IdleEdgeAcceptsWhatIsOffered := by
  intro s hunit hrst
  refine ⟨fun hreq => (State.EdgeTo.idles hrst hunit hreq).step_eq, fun o req hreq => ⟨resolveOffer_eq_ok_iff, ?_⟩⟩
  intro hcarries
  exact (State.EdgeTo.accepts hrst hunit hreq (resolveOffer_eq_ok_iff.2 hcarries)).step_eq

theorem State.reqReady_eq_true_iff {s : State} : s.reqReady = true ↔ s.edge.rst = false ∧ s.unit = .idle := by
  simp [State.reqReady]

/-- Settles O9: of all edges only an acceptance brings a request in flight. -/
theorem acceptanceNeedsValidAndReady : Obligations.AcceptanceNeedsValidAndReady := by
  intro s t req h hflight
  cases State.edgeTo_of_step h with
  | reset => cases hflight
  | accepts hrst hunit hreq hread =>
    cases hflight
    exact .inr ⟨hrst, State.reqReady_eq_true_iff.2 ⟨hrst, hunit⟩, _, hreq, hread⟩
  | answers => cases hflight
  | takes => cases hflight
  | idles => exact .inl hflight
  | waits => exact .inl hflight
  | holds => exact .inl hflight

/-- Settles O12: an instance that was busy becomes idle only by a reset or by its response being taken. -/
theorem notReadyUntilTheResponseIsTaken : Obligations.NotReadyUntilTheResponseIsTaken := by
  intro s t h hbusy hreqReady
  have hidle : t.unit = .idle := (State.reqReady_eq_true_iff.1 hreqReady).2
  cases State.edgeTo_of_step h with
  | reset hrst => exact .inl hrst
  | takes _ hunit hrspReady _ => exact .inr ⟨_, hunit, hrspReady⟩
  | accepts => cases hidle
  | answers => cases hidle
  | idles => exact absurd hidle hbusy
  | waits => exact absurd hidle hbusy
  | holds => exact absurd hidle hbusy

/-! ### Operands that cannot be read -/

/-- The fault of an operand that cannot be read is the offer's where the operands before it can be read (log 9). -/
theorem resolveOffer_error {record : List Entry} {o : Offer} {src : Source} {f : Fault}
    (hsrc : sourceValue record src = .error f) :
    (o.a = src → resolveOffer record o = .error f) ∧
    (∀ a, sourceValue record o.a = .ok a → o.b = src → resolveOffer record o = .error f) ∧
    (∀ a b, sourceValue record o.a = .ok a → sourceValue record o.b = .ok b →
      o.c = src → resolveOffer record o = .error f) ∧
    (∀ a b c, sourceValue record o.a = .ok a → sourceValue record o.b = .ok b → sourceValue record o.c = .ok c →
      o.d = src → resolveOffer record o = .error f) := by
  refine ⟨?_, ?_, ?_, ?_⟩
  · rintro rfl; simp only [resolveOffer, hsrc]
  · rintro a ha rfl; simp only [resolveOffer, ha, hsrc]
  · rintro a b ha hb rfl; simp only [resolveOffer, ha, hb, hsrc]
  · rintro a b c ha hb hc rfl; simp only [resolveOffer, ha, hb, hc, hsrc]

/-- An offer with an operand that cannot be read, on whichever port, has no request (log 16). -/
theorem resolveOffer_ne_ok {record : List Entry} {o : Offer} {src : Source} {f : Fault}
    (hsrc : sourceValue record src = .error f) (hport : o.a = src ∨ o.b = src ∨ o.c = src ∨ o.d = src)
    (req : Request) : resolveOffer record o ≠ .ok req := by
  intro hok
  obtain ⟨-, ha, hb, hc, hd⟩ := resolveOffer_ok hok
  obtain rfl | rfl | rfl | rfl := hport
  · rw [hsrc] at ha; cases ha
  · rw [hsrc] at hb; cases hb
  · rw [hsrc] at hc; cases hc
  · rw [hsrc] at hd; cases hd

theorem step_of_resolveOffer_error {s : State} {o : Offer} {f : Fault} (hunit : s.unit = .idle)
    (hrst : s.edge.rst = false) (hreq : s.edge.req = some o) (hread : resolveOffer s.record o = .error f) :
    step s = .fault f := by
  simp [step, hunit, hrst, hreq, State.accept, hread]

/-- An idle instance that is offered an operand it cannot read stops the step, on whichever port the operand is; with
that operand's fault where the operands before it can be read (logs 9 and 16). -/
theorem step_of_unreadable_source {s : State} {o : Offer} {src : Source} {f : Fault} (hunit : s.unit = .idle)
    (hrst : s.edge.rst = false) (hreq : s.edge.req = some o) (hsrc : sourceValue s.record src = .error f) :
    ((o.a = src ∨ o.b = src ∨ o.c = src ∨ o.d = src) → ∃ g : Fault, step s = .fault g) ∧
    (o.a = src → step s = .fault f) ∧
    (∀ a : Word, sourceValue s.record o.a = .ok a → o.b = src → step s = .fault f) ∧
    (∀ a b : Word, sourceValue s.record o.a = .ok a → sourceValue s.record o.b = .ok b →
      o.c = src → step s = .fault f) ∧
    (∀ a b c : Word, sourceValue s.record o.a = .ok a → sourceValue s.record o.b = .ok b →
      sourceValue s.record o.c = .ok c → o.d = src → step s = .fault f) := by
  have hfault {g : Fault} (hread : resolveOffer s.record o = .error g) : step s = .fault g :=
    step_of_resolveOffer_error hunit hrst hreq hread
  obtain ⟨hA, hB, hC, hD⟩ := resolveOffer_error (o := o) hsrc
  refine ⟨fun hport => ?_, fun h => hfault (hA h), fun a ha h => hfault (hB a ha h),
    fun a b ha hb h => hfault (hC a b ha hb h), fun a b c ha hb hc h => hfault (hD a b c ha hb hc h)⟩
  cases hread : resolveOffer s.record o with
  | error g => exact ⟨g, hfault hread⟩
  | ok req => exact absurd hread (resolveOffer_ne_ok hsrc hport req)

theorem sourceValue_of_port_none {record : List Entry} {tag : Nat} {p : Port} {rsp : Response}
    (hfind : findTagged tag record = some rsp) (hport : rsp.port p = none) :
    sourceValue record (.out tag p) = .error (.portHoldsNoValue tag p) := by
  simp only [sourceValue, hfind, hport]

/-- Settles O35: a port without a value is an operand that cannot be read. -/
theorem readingAPortWithoutValueFaults : Obligations.ReadingAPortWithoutValueFaults := by
  intro s o tag p rsp hunit hrst hreq hfind hport
  exact step_of_unreadable_source hunit hrst hreq (sourceValue_of_port_none hfind hport)

/-! ### The response -/

/-- Settles O10: a presented response is held until it is taken. -/
theorem responseIsHeldUntilTaken : Obligations.ResponseIsHeldUntilTaken := by
  intro s rsp hunit hrst
  exact ⟨fun hready => ⟨(State.EdgeTo.holds hrst hunit hready).step_eq, hunit⟩,
    fun hready hgo => (State.EdgeTo.takes hrst hunit hready hgo).step_eq⟩

/-- Settles O11: of all edges only a reset and the taking of a response touch the record. -/
theorem responsesAreNeverLostOrReordered : Obligations.ResponsesAreNeverLostOrReordered := by
  intro s t h
  cases State.edgeTo_of_step h with
  | reset hrst => exact .inr (.inl ⟨hrst, rfl⟩)
  | takes _ hunit hready _ => exact .inr (.inr ⟨_, hunit, hready, rfl, rfl⟩)
  | accepts _ hunit => exact .inl ⟨rfl, fun rsp hp => by rw [hunit] at hp; cases hp⟩
  | answers _ hunit => exact .inl ⟨rfl, fun rsp hp => by rw [hunit] at hp; cases hp⟩
  | idles => exact .inl ⟨rfl, fun _ hp => hp⟩
  | waits => exact .inl ⟨rfl, fun _ hp => hp⟩
  | holds => exact .inl ⟨rfl, fun _ hp => hp⟩

theorem State.rspValid_eq_true_iff {s : State} :
    s.rspValid = true ↔ s.edge.rst = false ∧ ∃ rsp, s.unit = .presented rsp := by
  cases hunit : s.unit <;> simp [State.rspValid, hunit]

theorem State.portValue_of_presented {s : State} {rsp : Response} (hunit : s.unit = .presented rsp) (p : Port) :
    s.portValue p = if s.rspValid then rsp.port p else none := by
  cases hrst : s.edge.rst <;> simp [State.portValue, State.rspValid, hunit, hrst]

theorem State.fcodeValue_of_presented {s : State} {rsp : Response} (hunit : s.unit = .presented rsp) :
    s.fcodeValue = if s.rspValid then some rsp.fcode.bits else none := by
  cases hrst : s.edge.rst <;> simp [State.fcodeValue, State.rspValid, hunit, hrst]

/-- Settles O13: the output ports and FCODE are read off the presented response, while it is valid. -/
theorem outputsHoldValuesOnlyWhileValid : Obligations.OutputsHoldValuesOnlyWhileValid := by
  refine fun s => ⟨fun hinvalid => ?_, fun hvalid => ?_⟩
  · cases hunit : s.unit with
    | idle => exact ⟨fun p => by simp [State.portValue, hunit], by simp [State.fcodeValue, hunit]⟩
    | inFlight req => exact ⟨fun p => by simp [State.portValue, hunit], by simp [State.fcodeValue, hunit]⟩
    | presented rsp =>
      exact ⟨fun p => by simp [State.portValue_of_presented hunit, hinvalid],
        by simp [State.fcodeValue_of_presented hunit, hinvalid]⟩
  · obtain ⟨-, rsp, hunit⟩ := State.rspValid_eq_true_iff.1 hvalid
    have hport (p : Port) : s.portValue p = rsp.port p := by
      rw [State.portValue_of_presented hunit, if_pos hvalid]
    refine ⟨rsp, hunit, ?_, hport .r0, hport .r1, hport .flag⟩
    rw [State.fcodeValue_of_presented hunit, if_pos hvalid]

/-! ### Instances -/

/-- Settles O55: a step of the system replaces one instance by the state its own step leads to (10_state.md R38). -/
theorem instancesShareNothing : Obligations.InstancesShareNothing := by
  intro sys sys' k h
  obtain ⟨s, t, hat, hstep, rfl⟩ := Instances.stepAt_cases h
  exact ⟨Instances.count_put sys t k, fun j hj => Instances.at?_put_ne sys t hj,
    s, t, hat, hstep, Instances.at?_put_self sys s t hat⟩

end Sys2Proof.Machine
end

section
/-! PROOFS. 10_state.md R32, R39: what every step keeps of the counter, of the values RDCYC returned, and of the
responses presented and recorded. -/

namespace Sys2Proof.Machine

/-! ### The counter -/

/-- CNT grows by the draw, cut at the largest value (log 4). -/
theorem growCnt_toNat (cnt : Word) (n : Nat) : (growCnt cnt n).toNat = min (cnt.toNat + n) (2 ^ 64 - 1) := by
  simp only [growCnt, BitVec.toNat_ofNat]; omega

/-- At every edge without reset CNT advances, and nothing else writes it. -/
theorem step_cnt {s t : State} (h : step s = .next t) (hrst : s.edge.rst = false) : t.cnt = s.runEdge.cnt := by
  cases State.edgeTo_of_step h with
  | reset hr => rw [hrst] at hr; cases hr
  | _ => rfl

/-- Settles O17: CNT grows by the edge's draw. -/
theorem cntNeverDecreasesWithoutReset : Obligations.CntNeverDecreasesWithoutReset := by
  intro s t h hrst
  rw [step_cnt h hrst, State.runEdge_cnt]
  exact ⟨growCnt_ge _ _, growCnt_toNat _ _⟩

/-! ### The requester's note -/

/-- The requester's note is about the request in flight: the part `State.Consistent` and `State.CountsOrdered`
share. -/
def State.NoteCurrent (s : State) : Prop := ∀ req, s.unit = .inFlight req → s.asked.req = req

theorem step_keeps_noteCurrent {s t : State} (hnote : s.NoteCurrent) (h : step s = .next t) : t.NoteCurrent := by
  intro req hflight
  cases State.edgeTo_of_step h with
  | reset => cases hflight
  | accepts => cases hflight; rfl
  | answers => cases hflight
  | takes => cases hflight
  | idles => exact hnote req hflight
  | waits => exact hnote req hflight
  | holds => exact hnote req hflight

/-! ### Responses -/

theorem answeredAs_responseOf (req : Request) (s : State) : AnsweredAs req (responseOf (decodeReq req) s.cnt) :=
  ⟨s, exec_eq_present _ s⟩

/-- A response presented after an edge was presented before it, or is one the noted request's operation gives. -/
theorem step_presented_cases {s t : State} {rsp : Response} (hnote : s.NoteCurrent) (h : step s = .next t)
    (hpres : t.unit = .presented rsp) :
    t.asked = s.asked ∧ (s.unit = .presented rsp ∨ AnsweredAs s.asked.req rsp) := by
  cases State.edgeTo_of_step h with
  | reset => cases hpres
  | accepts => cases hpres
  | takes => cases hpres
  | answers _ hunit =>
    cases hpres
    rw [hnote _ hunit]
    exact ⟨rfl, .inr (answeredAs_responseOf _ s.runEdge)⟩
  | idles => exact ⟨rfl, .inl hpres⟩
  | waits => exact ⟨rfl, .inl hpres⟩
  | holds => exact ⟨rfl, .inl hpres⟩

/-- A response recorded after an edge was recorded before it, or was presented and answers the noted request. -/
theorem step_record_cases {s t : State} {tag : Nat} {req : Request} {rsp : Response} (h : step s = .next t)
    (hmem : .answered tag req rsp ∈ t.record) :
    .answered tag req rsp ∈ s.record ∨ (s.unit = .presented rsp ∧ req = s.asked.req) := by
  obtain ⟨hrec, -⟩ | ⟨-, hrec⟩ | ⟨rsp', hunit, -, -, hrec⟩ := responsesAreNeverLostOrReordered s t h
  · exact .inl (hrec ▸ hmem)
  · rw [hrec, List.mem_cons] at hmem
    obtain hmem | hmem := hmem
    · cases hmem
    · exact .inl hmem
  · rw [hrec, List.mem_cons] at hmem
    obtain hmem | hmem := hmem
    · cases hmem; exact .inr ⟨hunit, rfl⟩
    · exact .inl hmem

/-- Settles O53: responses are made by `exec` alone, and recorded as they were presented. -/
theorem stepKeepsResponsesConsistent : Obligations.StepKeepsResponsesConsistent := by
  rintro s t ⟨hnote, hpres, hrec⟩ h
  refine ⟨step_keeps_noteCurrent hnote h, fun rsp ht => ?_, fun tag req rsp hmem => ?_⟩
  · obtain ⟨hasked, hold | hnew⟩ := step_presented_cases hnote h ht <;> rw [hasked]
    · exact hpres rsp hold
    · exact hnew
  · obtain hold | ⟨hunit, rfl⟩ := step_record_cases h hmem
    · exact hrec tag req rsp hold
    · exact hpres rsp hunit

/-! ### The values RDCYC returned -/

/-- The values read from CNT since the last reset, newest first, the presented one included. -/
def State.returnedCounts (s : State) : List Word := s.presentedCount ++ rdcycValues s.record

/-- Values, newest first, that do not increase, and none of them above `cnt` (10_state.md R32). -/
def OrderedUpTo (cnt : Word) (vs : List Word) : Prop :=
  List.Pairwise (fun newer older => older.toNat ≤ newer.toNat) vs ∧ ∀ v ∈ vs, v.toNat ≤ cnt.toNat

theorem State.countsOrdered_iff {s : State} :
    s.CountsOrdered ↔ s.NoteCurrent ∧ OrderedUpTo s.cnt s.returnedCounts := Iff.rfl

theorem OrderedUpTo.nil (cnt : Word) : OrderedUpTo cnt [] := ⟨List.Pairwise.nil, nofun⟩

theorem OrderedUpTo.mono {cnt cnt' : Word} {vs : List Word} (h : OrderedUpTo cnt vs) (hle : cnt.toNat ≤ cnt'.toNat) :
    OrderedUpTo cnt' vs :=
  ⟨h.1, fun v hv => (h.2 v hv).trans hle⟩

/-- Reading CNT adds a newest value. -/
theorem OrderedUpTo.cons_self {cnt : Word} {vs : List Word} (h : OrderedUpTo cnt vs) : OrderedUpTo cnt (cnt :: vs) :=
  ⟨List.pairwise_cons.2 ⟨h.2, h.1⟩, List.forall_mem_cons.2 ⟨le_refl _, h.2⟩⟩

theorem State.returnedCounts_of_idle {s : State} (hunit : s.unit = .idle) :
    s.returnedCounts = rdcycValues s.record := by
  simp [State.returnedCounts, State.presentedCount, hunit]

theorem State.returnedCounts_of_inFlight {s : State} {req : Request} (hunit : s.unit = .inFlight req) :
    s.returnedCounts = rdcycValues s.record := by
  simp [State.returnedCounts, State.presentedCount, hunit]

/-- A presented response counts as it will count once it is taken. -/
theorem State.returnedCounts_of_presented {s : State} {rsp : Response} (hunit : s.unit = .presented rsp) :
    s.returnedCounts = rdcycValues (.answered s.asked.tag s.asked.req rsp :: s.record) := by
  simp [State.returnedCounts, State.presentedCount, rdcycValues, hunit]

/-- Only RDCYC reads CNT: what answering a request adds to the values returned. -/
theorem toList_responseOf_r0 (req : Request) (cnt : Word) :
    (if isRdcyc req then (responseOf (decodeReq req) cnt).r0.toList else []) = if isRdcyc req then [cnt] else [] := by
  by_cases hr : isRdcyc req = true
  · have hname : (decodeReq req).name = .rdcyc := by simpa [isRdcyc] using hr
    rw [responseOf_of_rdcyc hname]; rfl
  · simp [hr]

/-- What an edge does to the values returned: a reset forgets them, answering an RDCYC adds CNT as it stands then, and
every other edge, the one that takes a response included, keeps them. -/
theorem step_returnedCounts {s t : State} (hnote : s.NoteCurrent) (h : step s = .next t) :
    t.returnedCounts = [] ∨
    (s.cnt.toNat ≤ t.cnt.toNat ∧
      (t.returnedCounts = s.returnedCounts ∨ t.returnedCounts = t.cnt :: s.returnedCounts)) := by
  have hgrow : s.cnt.toNat ≤ s.runEdge.cnt.toNat := growCnt_ge _ _
  cases State.edgeTo_of_step h with
  | reset => exact .inl rfl
  | idles => exact .inr ⟨hgrow, .inl rfl⟩
  | waits => exact .inr ⟨hgrow, .inl rfl⟩
  | holds => exact .inr ⟨hgrow, .inl rfl⟩
  | accepts _ hunit => exact .inr ⟨hgrow, .inl (State.returnedCounts_of_idle hunit).symm⟩
  | takes _ hunit => exact .inr ⟨hgrow, .inl (State.returnedCounts_of_presented hunit).symm⟩
  | @answers req _ hunit =>
    have hafter : (s.runEdge.present (responseOf (decodeReq req) s.runEdge.cnt)).returnedCounts =
        (if isRdcyc req then [s.runEdge.cnt] else []) ++ s.returnedCounts := by
      rw [State.returnedCounts_of_inFlight hunit, ← toList_responseOf_r0, ← hnote req hunit]; rfl
    refine .inr ⟨hgrow, ?_⟩
    by_cases hr : isRdcyc req = true
    · exact .inr (by rw [hafter, if_pos hr, List.singleton_append]; rfl)
    · exact .inl (by rw [hafter, if_neg hr, List.nil_append])

/-- Settles O18: the values RDCYC returned stay ordered, because each is CNT as it stood, and CNT never decreases. -/
theorem rdcycValuesStayOrdered : Obligations.RdcycValuesStayOrdered := by
  intro s t hs h
  obtain ⟨hnote, hord⟩ := State.countsOrdered_iff.1 hs
  refine State.countsOrdered_iff.2 ⟨step_keeps_noteCurrent hnote h, ?_⟩
  obtain hnil | ⟨hle, hsame | hnew⟩ := step_returnedCounts hnote h
  · rw [hnil]; exact .nil _
  · rw [hsame]; exact hord.mono hle
  · rw [hnew]; exact (hord.mono hle).cons_self

/-- Settles O19: right after reset nothing is in flight and no value has been returned. -/
theorem rdcycValuesOrderedAtReset : Obligations.RdcycValuesOrderedAtReset :=
  State.countsOrdered_iff.2 ⟨nofun, OrderedUpTo.nil _⟩

end Sys2Proof.Machine
end

section
/-! PROOFS. 30_encoding.md R53 to R58: requests as words, the decoder and the encoder, and the opcode table. -/

namespace Sys2Proof

/-! ### The request as one word -/

/-- The fields of a word are its slices (log 10). -/
theorem Request.unpack_eq (w : ReqBits) :
    Request.unpack w = ⟨w.extractLsb' 0 4, w.extractLsb' 4 64, w.extractLsb' 68 64, w.extractLsb' 132 64,
      w.extractLsb' 196 64⟩ := rfl

open BitVec in
@[simp] theorem Request.unpack_pack (r : Request) : Request.unpack r.pack = r := by
  have hop : r.pack.extractLsb' 0 4 = r.op :=
    (extractLsb'_append_eq_of_add_le (by decide)).trans <| (extractLsb'_append_eq_of_add_le (by decide)).trans <|
      (extractLsb'_append_eq_of_add_le (by decide)).trans extractLsb'_append_eq_right
  have ha : r.pack.extractLsb' 4 64 = r.a :=
    (extractLsb'_append_eq_of_add_le (by decide)).trans <| (extractLsb'_append_eq_of_add_le (by decide)).trans <|
      (extractLsb'_append_eq_of_add_le (by decide)).trans extractLsb'_append_eq_left
  have hb : r.pack.extractLsb' 68 64 = r.b :=
    (extractLsb'_append_eq_of_add_le (by decide)).trans <|
      (extractLsb'_append_eq_of_add_le (by decide)).trans extractLsb'_append_eq_left
  have hc : r.pack.extractLsb' 132 64 = r.c :=
    (extractLsb'_append_eq_of_add_le (by decide)).trans extractLsb'_append_eq_left
  have hd : r.pack.extractLsb' 196 64 = r.d := extractLsb'_append_eq_left
  rw [Request.unpack_eq, hop, ha, hb, hc, hd]

/-- Two neighbouring slices of a word are one slice. -/
theorem extractLsb'_append_low {n : Nat} (w : BitVec n) (k len : Nat) :
    w.extractLsb' k len ++ w.extractLsb' 0 k = w.extractLsb' 0 (len + k) :=
  BitVec.extractLsb'_append_extractLsb'_eq_extractLsb' (Nat.zero_add k).symm

@[simp] theorem Request.pack_unpack (w : ReqBits) : (Request.unpack w).pack = w :=
  calc w.extractLsb' 196 64 ++ (w.extractLsb' 132 64 ++ (w.extractLsb' 68 64 ++
        (w.extractLsb' 4 64 ++ w.extractLsb' 0 4)))
    _ = w.extractLsb' 196 64 ++ (w.extractLsb' 132 64 ++ (w.extractLsb' 68 64 ++ w.extractLsb' 0 68)) := by
      rw [extractLsb'_append_low w 4 64]
    _ = w.extractLsb' 196 64 ++ (w.extractLsb' 132 64 ++ w.extractLsb' 0 132) := by
      rw [extractLsb'_append_low w 68 64]
    _ = w.extractLsb' 196 64 ++ w.extractLsb' 0 196 := by rw [extractLsb'_append_low w 132 64]
    _ = w.extractLsb' 0 260 := extractLsb'_append_low w 196 64
    _ = w := BitVec.extractLsb'_eq_self

/-! ### The decoder and the encoder on the five fields -/

/-- The OP values (R55, R56): the reserved space, and one value for each of the eight operations. -/
theorem op_cases : ∀ op : BitVec 4, 8 ≤ op.toNat ∨ op = 0x0#4 ∨ op = 0x1#4 ∨ op = 0x2#4 ∨ op = 0x3#4 ∨
    op = 0x4#4 ∨ op = 0x5#4 ∨ op = 0x6#4 ∨ op = 0x7#4 := by decide

theorem decodeReq_of_reserved {op : BitVec 4} (h : 8 ≤ op.toNat) (a b c d : Word) :
    decodeReq ⟨op, a, b, c, d⟩ = .reserved op a b c d :=
  Laws.FieldRoundTrip.reserved op a b c d (decide_eq_true h)

theorem decodeReq_encodeReq {i : Instr} (h : i.wellFormed = true) : decodeReq (encodeReq i) = i := by
  cases i with
  | reserved op a b c d => exact Laws.FieldRoundTrip.reserved op a b c d h
  | _ => rfl

/-- What the decoder answers is a command, and its request is the one decoded: no field is dropped. -/
theorem wellFormed_decodeReq_and_encodeReq_decodeReq (r : Request) :
    (decodeReq r).wellFormed = true ∧ encodeReq (decodeReq r) = r := by
  obtain ⟨op, a, b, c, d⟩ := r
  obtain hop | rfl | rfl | rfl | rfl | rfl | rfl | rfl | rfl := op_cases op
  · rw [decodeReq_of_reserved hop]
    exact ⟨decide_eq_true hop, rfl⟩
  all_goals exact ⟨rfl, rfl⟩

/-- Settles O1: the word holds the five fields, and the fields hold the command. -/
theorem decodeAfterEncodeGivesTheCommand : Obligations.DecodeAfterEncodeGivesTheCommand := by
  intro i h
  rw [decode, encode, Request.unpack_pack, decodeReq_encodeReq h]

/-- Settles O2: every word is the word of its fields, and the decoder drops none of them. -/
theorem encodeAfterDecodeGivesTheRequest : Obligations.EncodeAfterDecodeGivesTheRequest := by
  intro w
  obtain ⟨hwf, hreq⟩ := wellFormed_decodeReq_and_encodeReq_decodeReq (Request.unpack w)
  exact ⟨hwf, by rw [decode, encode, hreq, Request.pack_unpack]⟩

/-- Settles O3: the decoder's rows, and the reserved space beyond them. -/
theorem everyOpValueSelectsItsOperation : Obligations.EveryOpValueSelectsItsOperation :=
  fun a b c d => ⟨rfl, rfl, rfl, rfl, rfl, rfl, rfl, rfl, fun _ hop => decodeReq_of_reserved hop a b c d⟩

/-! ### The opcode table -/

/-- Of the table's rows only the last covers a reserved OP (R56). -/
theorem filter_covers_of_reserved : ∀ op : BitVec 4, 8 ≤ op.toNat →
    opcodeTable.filter (fun r => r.covers op) = [⟨.reserved, 0x8#4, 0x8#4⟩] := by decide

/-- Settles O4: the rows of the eight operations are single OP values, and the last row is the reserved space. -/
theorem oneTableRowCoversEachOp : Obligations.OneTableRowCoversEachOp := by
  intro op a b c d
  obtain hop | rfl | rfl | rfl | rfl | rfl | rfl | rfl | rfl := op_cases op
  · exact ⟨_, filter_covers_of_reserved op hop, by rw [decodeReq_of_reserved hop]; rfl⟩
  all_goals exact ⟨_, rfl, rfl⟩

/-! ### Words the host places -/

theorem shiftRight_ne_zero {n k : Nat} (h : 2 ^ k ≤ n) : n >>> k ≠ 0 := by
  rw [Nat.shiftRight_eq_div_pow]
  exact (Nat.div_pos h (Nat.two_pow_pos k)).ne'

theorem decodeWire_of_beyond {n : Nat} (h : 2 ^ 260 ≤ n) : decodeWire n = .error .beyondRequest :=
  if_neg (shiftRight_ne_zero h)

/-- Settles O5, by running the decoder on each word of the request's bits. -/
theorem writtenOutWordsDecode : Obligations.WrittenOutWordsDecode :=
  ⟨by decide, by decide, by decide, by decide, by decide, decodeWire_of_beyond (Nat.le_refl _)⟩

theorem decodeWire_eq_ok {n : Nat} {i : Instr} (h : decodeWire n = .ok i) : decodeReq (Request.ofNat n) = i := by
  unfold decodeWire at h
  split at h
  · exact Except.ok.inj h
  · cases h

theorem decodeTableWord_eq_some {nbits w : Nat} {i : Instr} (h : decodeTableWord nbits w = some i) :
    decodeReq (Request.ofNat (w % 2 ^ nbits)) = i := by
  refine decodeWire_eq_ok ?_
  unfold decodeTableWord at h
  cases hwire : decodeWire (w % 2 ^ nbits) with
  | error e => rw [hwire] at h; cases h
  | ok j => rw [hwire] at h; exact congrArg _ (Option.some.inj h)

open Machine in
/-- Settles O7: the placed word is a request in flight before a quiet edge, and a quiet edge answers it. -/
theorem placedWordIsRunByTheNextStep : Obligations.PlacedWordIsRunByTheNextStep := by
  intro s nbits w i h
  have hquiet : (s.withFetchWord nbits w).edge = Edge.quiet := State.withRequest_edge s _
  have hunit : (s.withFetchWord nbits w).unit = .inFlight (Request.ofNat (w % 2 ^ nbits)) := rfl
  rw [step_of_inFlight hunit (by rw [hquiet]; rfl), hquiet, decodeTableWord_eq_some h]
  rfl

end Sys2Proof
end

section
/-! PROOFS. 30_encoding.md R60 to R62, R66, R68: what each operation answers inside and outside its domain, how a
recorded response is read, and what the pseudo-instructions mean. -/

namespace Sys2Proof.Machine

/-! ### The domain checks decide the domains of R60 -/

theorem carryInRange_eq_true_iff {c : Word} : carryInRange c = true ↔ uint c = 0 ∨ uint c = 1 := by
  have := uint_nonneg c
  rw [carryInRange, decide_eq_true_iff]
  omega

theorem divisorNonzero_eq_true_iff {c : Word} : divisorNonzero c = true ↔ uint c ≠ 0 := decide_eq_true_iff

theorem quotientFits_eq_true_iff {a c : Word} : quotientFits a c = true ↔ uint a < uint c := decide_eq_true_iff

theorem shiftInRange_eq_true_iff {c : Word} : shiftInRange c = true ↔ uint c ≤ 63 := decide_eq_true_iff

/-! ### What an operation answers -/

/-- In its domain an operation answers without a fault, on exactly its defined ports (R62). -/
theorem responseOf_of_inDomain {i : Instr} (h : inDomain i) (cnt : Word) :
    (responseOf i cnt).fcode = .noFault ∧ (responseOf i cnt).mask = definedPorts i.name := by
  cases i with
  | adc a b c d =>
    rw [responseOf, adcResponse, if_pos (carryInRange_eq_true_iff.2 h)]
    exact ⟨rfl, rfl⟩
  | sbb a b c d =>
    rw [responseOf, sbbResponse, if_pos (carryInRange_eq_true_iff.2 h)]
    exact ⟨rfl, rfl⟩
  | divu a b c d =>
    obtain ⟨hnonzero, hfits⟩ := h
    rw [responseOf, divuResponse, if_pos (divisorNonzero_eq_true_iff.2 hnonzero),
      if_pos (quotientFits_eq_true_iff.2 hfits)]
    exact ⟨rfl, rfl⟩
  | vshl a b c d =>
    rw [responseOf, vshlResponse, if_pos (shiftInRange_eq_true_iff.2 h)]
    exact ⟨rfl, rfl⟩
  | reserved op a b c d => exact h.elim
  | mulu | muls | rdcyc | vsub => exact ⟨rfl, rfl⟩

/-- Outside its domain an operation answers with one of its own fault codes (R60, 60_exceptions.md R105). -/
theorem responseOf_of_not_inDomain {i : Instr} (h : ¬ inDomain i) (cnt : Word) :
    ∃ code ∈ faultCodes i.name, responseOf i cnt = raiseFault code := by
  cases i with
  | adc a b c d => exact ⟨.carryInRange, .head _, if_neg (mt carryInRange_eq_true_iff.1 h)⟩
  | sbb a b c d => exact ⟨.carryInRange, .head _, if_neg (mt carryInRange_eq_true_iff.1 h)⟩
  | divu a b c d =>
    by_cases hzero : uint c = 0
    · exact ⟨.divideByZero, .head _, if_neg fun hc => divisorNonzero_eq_true_iff.1 hc hzero⟩
    · have hfits : ¬ quotientFits a c = true := fun hq => h ⟨hzero, quotientFits_eq_true_iff.1 hq⟩
      exact ⟨.divideOverflow, .tail _ (.head _),
        (if_pos (divisorNonzero_eq_true_iff.2 hzero)).trans (if_neg hfits)⟩
  | vshl a b c d => exact ⟨.shiftRange, .head _, if_neg (mt shiftInRange_eq_true_iff.1 h)⟩
  | reserved op a b c d => exact ⟨.illegalOp, .head _, rfl⟩
  | mulu | muls | rdcyc | vsub => exact absurd trivial h

/-- FCODE 0 is no operation's fault code. -/
theorem ne_noFault_of_mem_faultCodes {op : OpName} {code : FCode} (h : code ∈ faultCodes op) : code ≠ .noFault := by
  rintro rfl
  cases op <;> simp [faultCodes] at h

theorem responseOf_fcode_eq_noFault_iff {i : Instr} {cnt : Word} :
    (responseOf i cnt).fcode = .noFault ↔ inDomain i := by
  refine ⟨fun hfcode => ?_, fun h => (responseOf_of_inDomain h cnt).1⟩
  by_contra h
  obtain ⟨code, hmem, heq⟩ := responseOf_of_not_inDomain h cnt
  rw [heq] at hfcode
  exact ne_noFault_of_mem_faultCodes hmem hfcode

theorem responseOf_legalFor (i : Instr) (cnt : Word) : (responseOf i cnt).LegalFor i.name := by
  by_cases h : inDomain i
  · obtain ⟨hfcode, hmask⟩ := responseOf_of_inDomain h cnt
    refine .inl ⟨hfcode, fun hname => ?_, hmask⟩
    cases i with
    | reserved => exact h
    | _ => cases hname
  · obtain ⟨code, hmem, heq⟩ := responseOf_of_not_inDomain h cnt
    rw [heq]
    exact .inr ⟨hmem, rfl⟩

/-- Settles O30: the one response of an operation is legal for it. -/
theorem everyOperationPresentsOneLegalResponse : Obligations.EveryOperationPresentsOneLegalResponse :=
  fun i s => ⟨responseOf i s.cnt, exec_eq_present i s, responseOf_legalFor i s.cnt⟩

/-- Settles O31: an operation's domain checks are its domain. -/
theorem faultExactlyOutsideTheDomain : Obligations.FaultExactlyOutsideTheDomain := by
  refine fun i s => ⟨responseOf i s.cnt, exec_eq_present i s, responseOf_fcode_eq_noFault_iff, fun h => ?_⟩
  obtain ⟨code, hmem, heq⟩ := responseOf_of_not_inDomain h s.cnt
  rwa [heq]

/-! ### Chained FLAGs -/

theorem answerAt_eq (s : State) (i : Instr) : answerAt s i = some (responseOf i s.cnt) := by
  rw [answerAt, exec_eq_present]; rfl

/-- What a FLAG port holds is a bit (10_state.md R29), whatever the response. -/
theorem uint_eq_zero_or_one_of_flag {rsp : Response} {k : Word} (h : rsp.port .flag = some k) :
    uint k = 0 ∨ uint k = 1 := by
  obtain ⟨f, -, hk⟩ := port_eq_some_iff.1 h
  have := f.isLt
  rw [uint_eq_toNat]
  omega

/-- Settles O36: a FLAG is a bit, and a bit is in the domain of ADC and SBB. -/
theorem chainedFlagNeverFaults : Obligations.ChainedFlagNeverFaults := by
  intro i s t rsp k _ _ hflag a b d
  have hk := uint_eq_zero_or_one_of_flag hflag
  exact ⟨_, _, answerAt_eq t (.adc a b k d), responseOf_fcode_eq_noFault_iff.2 hk,
    answerAt_eq t (.sbb a b k d), responseOf_fcode_eq_noFault_iff.2 hk⟩

/-! ### Recorded responses -/

theorem FCode.ofBits_eq_none : ∀ v : BitVec 3, 6 ≤ v.toNat → FCode.ofBits v = none := by decide

@[simp] theorem FCode.ofBits_bits (code : FCode) : FCode.ofBits code.bits = some code := by cases code <;> rfl

theorem FCode.exists_bits_eq {v : BitVec 3} (h : v.toNat ≤ 5) : ∃ code : FCode, code.bits = v := by
  have hv : ∀ v : BitVec 3, v.toNat ≤ 5 → v = 0#3 ∨ v = 1#3 ∨ v = 2#3 ∨ v = 3#3 ∨ v = 4#3 ∨ v = 5#3 := by decide
  obtain rfl | rfl | rfl | rfl | rfl | rfl := hv v h
  exacts [⟨.noFault, rfl⟩, ⟨.illegalOp, rfl⟩, ⟨.carryInRange, rfl⟩, ⟨.divideByZero, rfl⟩, ⟨.divideOverflow, rfl⟩,
    ⟨.shiftRange, rfl⟩]

theorem readRecorded_of_reserved {op : OpName} {w : Recorded} (h : FCode.ofBits w.fcode = none) :
    readRecorded op w = .refused (.reservedFcode w.fcode) := by
  simp only [readRecorded, h]

theorem readRecorded_of_noFault {op : OpName} {w : Recorded} (h : FCode.ofBits w.fcode = some .noFault) :
    readRecorded op w = .next ⟨if (definedPorts op).1 then some w.r0 else none,
      if (definedPorts op).2.1 then some w.r1 else none, if (definedPorts op).2.2 then some w.flag else none,
      .noFault⟩ := by
  simp only [readRecorded, h]

theorem readRecorded_of_fault {op : OpName} {w : Recorded} {code : FCode} (h : FCode.ofBits w.fcode = some code)
    (hcode : code ≠ .noFault) : readRecorded op w = .next (raiseFault code) := by
  simp only [readRecorded, h]

/-- Settles O37: by the code on FCODE: reserved, no fault, or a fault. -/
theorem recordedResponsesAreReadByTheirCode : Obligations.RecordedResponsesAreReadByTheirCode := by
  refine fun op w => ⟨fun h => readRecorded_of_reserved (FCode.ofBits_eq_none _ h), fun h => ?_, fun h1 h5 => ?_⟩
  · have hsome : ∀ {α : Type} (b : Bool) (x v : α), (if b then some x else none) = some v → v = x :=
      fun b x v hv => (Option.ite_some_none_eq_some.1 hv).2.symm
    refine ⟨_, readRecorded_of_noFault (by rw [h]; rfl), rfl, ?_, hsome _ _, hsome _ _, hsome _ _⟩
    simp [Response.mask, apply_ite Option.isSome]
  · obtain ⟨code, hbits⟩ := FCode.exists_bits_eq h5
    refine ⟨code, hbits, readRecorded_of_fault (by rw [← hbits, FCode.ofBits_bits]) ?_⟩
    rintro rfl
    rw [← hbits] at h1
    exact absurd h1 (by decide)

/-! ### Exact integers and words -/

@[simp] theorem bits64_uint (x : Word) : bits64 (uint x) = x := by simp [bits64, uint]

theorem bits64_uint_add (x y : Word) : bits64 (uint x + uint y) = x + y := by
  rw [bits64, BitVec.ofInt_add]
  exact congrArg₂ _ (bits64_uint x) (bits64_uint y)

theorem bits64_uint_sub (x y : Word) : bits64 (uint x - uint y) = x - y := by
  rw [bits64, Int.sub_eq_add_neg, BitVec.ofInt_add, BitVec.ofInt_neg, BitVec.sub_eq_add_neg]
  exact congrArg₂ (fun u v => u + -v) (bits64_uint x) (bits64_uint y)

@[simp] theorem uint_zero : uint 0#64 = 0 := rfl

theorem uint_div (x y : Word) : uint (x / y) = uint x / uint y := by simp [uint]

theorem uint_mod (x y : Word) : uint (x % y) = uint x % uint y := by simp [uint]

theorem uint_eq_zero_iff {x : Word} : uint x = 0 ↔ x = 0#64 :=
  ⟨fun h => uint_injective (h.trans uint_zero.symm), fun h => h ▸ uint_zero⟩

@[simp] theorem dividend_zero (low : Word) : dividend 0#64 low = uint low := by simp [dividend]

@[simp] theorem shiftLane_zero (x : Word) : shiftLane x 0 = x := by simp [shiftLane]

theorem carryOut_uint_add (x y : Word) :
    carryOut (uint x + uint y) = if x.toNat + y.toNat < 2 ^ 64 then 0#1 else 1#1 := by
  have hcarry : (2 : Int) ^ 64 ≤ uint x + uint y ↔ ¬ x.toNat + y.toNat < 2 ^ 64 := by
    rw [uint_eq_toNat, uint_eq_toNat]; omega
  rw [carryOut, if_congr hcarry rfl rfl, ite_not]

theorem borrowOut_uint_sub (x y : Word) :
    borrowOut (uint x - uint y) = if x.toNat < y.toNat then 1#1 else 0#1 := by
  have hborrow : uint x - uint y < 0 ↔ x.toNat < y.toNat := by
    rw [uint_eq_toNat, uint_eq_toNat]; omega
  rw [borrowOut, if_congr hborrow rfl rfl]

/-! ### Pseudo-instructions (R66) -/

/-- `ADD` is ADC without a carry-in: the sum and its carry. -/
theorem adcResponse_zero (x y : Word) :
    adcResponse x y 0#64 = flagged (x + y) (if x.toNat + y.toNat < 2 ^ 64 then 0#1 else 1#1) := by
  rw [adcResponse, if_pos (by decide), uint_zero, add_zero, bits64_uint_add, carryOut_uint_add]

/-- `SUB` is SBB without a borrow-in: the difference and its borrow. -/
theorem sbbResponse_zero (x y : Word) :
    sbbResponse x y 0#64 = flagged (x - y) (if x.toNat < y.toNat then 1#1 else 0#1) := by
  rw [sbbResponse, if_pos (by decide), uint_zero, sub_zero, bits64_uint_sub, borrowOut_uint_sub]

/-- `NEG` is `SUB` from 0, which borrows unless the operand is 0. -/
theorem sbbResponse_zero_zero (x : Word) :
    sbbResponse 0#64 x 0#64 = flagged (-x) (if x = 0#64 then 0#1 else 1#1) := by
  have hborrow : (0#64).toNat < x.toNat ↔ ¬ x = 0#64 := by
    rw [← BitVec.toNat_inj, BitVec.toNat_zero, Nat.pos_iff_ne_zero]
  rw [sbbResponse_zero, BitVec.zero_sub, if_congr hborrow rfl rfl, ite_not]

/-- `DIV64` is DIVU with high word 0, so every nonzero divisor is in its domain. -/
theorem divuResponse_zero_high {x y : Word} (hy : y ≠ 0#64) : divuResponse 0#64 x y = paired (x / y) (x % y) := by
  have hnonzero : uint y ≠ 0 := mt uint_eq_zero_iff.1 hy
  have hfits : uint 0#64 < uint y := lt_of_le_of_ne (uint_nonneg y) hnonzero.symm
  rw [divuResponse, if_pos (divisorNonzero_eq_true_iff.2 hnonzero), if_pos (quotientFits_eq_true_iff.2 hfits),
    dividend_zero, ← uint_div, ← uint_mod, bits64_uint, bits64_uint]

theorem divuResponse_zero_divisor (high low : Word) : divuResponse high low 0#64 = raiseFault .divideByZero :=
  if_neg (by decide)

theorem vsubResponse_eq (a0 a1 b0 b1 : Word) : vsubResponse a0 a1 b0 b1 = paired (a0 - b0) (a1 - b1) := by
  rw [vsubResponse, subLane, subLane, bits64_uint_sub, bits64_uint_sub]

/-- `VNEG` is VSUB from 0. -/
theorem vsubResponse_zero (x y : Word) : vsubResponse 0#64 0#64 x y = paired (-x) (-y) := by
  rw [vsubResponse_eq, BitVec.zero_sub, BitVec.zero_sub]

/-- `VMOV` is VSHL by 0. -/
theorem vshlResponse_zero (x y : Word) : vshlResponse x y 0#64 = paired x y := by
  rw [vshlResponse, if_pos (by decide)]
  exact congrArg₂ paired (shiftLane_zero x) (shiftLane_zero y)

theorem exec_eq_of_responseOf {i : Instr} {s : State} {rsp : Response} (h : responseOf i s.cnt = rsp) :
    exec i s = .next { s with unit := .presented rsp } := h ▸ exec_eq_present i s

/-- Settles O39: each expansion is one request, and its operation has the meaning the table gives. -/
theorem pseudoInstructionsMeanWhatTheySay : Obligations.PseudoInstructionsMeanWhatTheySay := by
  intro x y s
  refine ⟨⟨rfl, rfl, rfl, rfl, rfl, rfl⟩, ⟨_, rfl, ?add⟩, ⟨_, rfl, ?sub⟩, ⟨_, rfl, ?neg⟩,
    fun hy => ⟨_, rfl, ?div64⟩, ⟨_, rfl, ?div64Zero⟩, ⟨_, rfl, ?vneg⟩, ⟨_, rfl, ?vmov⟩⟩
  case add => exact exec_eq_of_responseOf (adcResponse_zero x y)
  case sub => exact exec_eq_of_responseOf (sbbResponse_zero x y)
  case neg => exact exec_eq_of_responseOf (sbbResponse_zero_zero x)
  case div64 => exact exec_eq_of_responseOf (divuResponse_zero_high hy)
  case div64Zero => exact exec_eq_of_responseOf (divuResponse_zero_divisor 0#64 x)
  case vneg => exact exec_eq_of_responseOf (vsubResponse_zero x y)
  case vmov => exact exec_eq_of_responseOf (vshlResponse_zero x y)

end Sys2Proof.Machine
end

section
/-! PROOFS. 30_encoding.md R63, R64, R66: the offers of statements and of programs, and references. -/

namespace Sys2Proof.Machine

/-! ### References -/

theorem sourceValue_of_untaken {record : List Entry} {tag : Nat} (h : findTagged tag record = none) (p : Port) :
    sourceValue record (.out tag p) = .error (.noSuchResponse tag) := by
  simp only [sourceValue, h]

/-- Settles O56: a reference to a response never taken is an operand that cannot be read. -/
theorem referenceToAnUntakenResponseFaults : Obligations.ReferenceToAnUntakenResponseFaults := by
  intro s o tag p hunit hrst hreq hfind
  exact step_of_unreadable_source hunit hrst hreq (sourceValue_of_untaken hfind p)

theorem source_ref_of_findLabel {earlier : List Earlier} {label : List Char} {e : Earlier}
    (h : findLabel label earlier = some e) (p : Port) :
    (AsmOperand.ref label p).source earlier =
      if definesPort e.op p then .ok (.out e.tag p) else .error (.undefinedOutput label p) := by
  simp only [AsmOperand.source, h]

theorem source_ref_of_unknown {earlier : List Earlier} {label : List Char}
    (h : findLabel label earlier = none) (p : Port) :
    (AsmOperand.ref label p).source earlier = .error (.unknownLabel label) := by
  simp only [AsmOperand.source, h]

/-- Settles O58: a reference is read off the nearest earlier statement with its label. -/
theorem referencesNameEarlierTransactions : Obligations.ReferencesNameEarlierTransactions := by
  refine fun earlier label p => ⟨fun w => rfl, ?_, fun h => source_ref_of_unknown (findLabel_eq_none h) p⟩
  rintro newer older tag op rfl hnewer
  have hsource := source_ref_of_findLabel (findLabel_nearest (older := older) (x := ⟨label, tag, op⟩) rfl hnewer) p
  exact ⟨fun hdef => hsource.trans (if_pos hdef), fun hundef => hsource.trans (if_neg (by simp [hundef]))⟩

/-! ### The offer of a statement -/

/-- The offer of a mnemonic whose statement's operands have these sources. -/
def offerOf (tag : Nat) (m : Mnemonic) (srcs : List Source) : Offer :=
  let xs := expandOperands (Source.lit 0#64) m srcs
  ⟨tag, opValueOf m.opName, xs.getD 0 (.lit 0#64), xs.getD 1 (.lit 0#64), xs.getD 2 (.lit 0#64),
    xs.getD 3 (.lit 0#64)⟩

theorem offer_of_count {earlier : List Earlier} {tag : Nat} {st : Statement}
    (hcount : st.operands.length = st.mnemonic.arity) :
    st.offer earlier tag = (sourcesOf earlier st.operands).map (offerOf tag st.mnemonic) := by
  rw [Statement.offer, if_pos hcount]
  cases sourcesOf earlier st.operands <;> rfl

theorem offer_of_wrong_count {earlier : List Earlier} {tag : Nat} {st : Statement}
    (hcount : st.operands.length ≠ st.mnemonic.arity) :
    st.offer earlier tag = .error (.operandCount st.mnemonic st.operands.length) := if_neg hcount

theorem offer_of_sources {earlier : List Earlier} {tag : Nat} {label : Option (List Char)} {m : Mnemonic}
    {ops : List AsmOperand} {srcs : List Source} (hcount : ops.length = m.arity)
    (hsrcs : sourcesOf earlier ops = .ok srcs) :
    Statement.offer earlier tag ⟨label, m, ops⟩ = .ok (offerOf tag m srcs) := by
  rw [offer_of_count hcount, hsrcs]; rfl

/-- An offer is made under the tag it is given. -/
theorem tag_of_offer {earlier : List Earlier} {tag : Nat} {st : Statement} {o : Offer}
    (h : st.offer earlier tag = .ok o) : o.tag = tag := by
  by_cases hcount : st.operands.length = st.mnemonic.arity
  · rw [offer_of_count hcount] at h
    cases hsrcs : sourcesOf earlier st.operands with
    | error e => rw [hsrcs] at h; cases h
    | ok srcs => rw [hsrcs] at h; cases h; rfl
  · rw [offer_of_wrong_count hcount] at h; cases h

theorem expandOperands_map {α β : Type} (f : α → β) (zero : α) (m : Mnemonic) (ops : List α) :
    expandOperands (f zero) m (ops.map f) = (expandOperands zero m ops).map f := by
  cases m <;> simp [expandOperands]

theorem requestOf_eq_some {m : Mnemonic} {ws : List Word} {req : Request} (h : requestOf m ws = some req) :
    ws.length = m.arity ∧ req = ⟨opValueOf m.opName, (expandOperands 0#64 m ws).getD 0 0#64,
      (expandOperands 0#64 m ws).getD 1 0#64, (expandOperands 0#64 m ws).getD 2 0#64,
      (expandOperands 0#64 m ws).getD 3 0#64⟩ := by
  unfold requestOf at h
  split at h
  · rename_i hcount; exact ⟨hcount, (Option.some.inj h).symm⟩
  · cases h

/-- The offer of literal operands is the request of their words. -/
theorem offerOf_lits {m : Mnemonic} {ws : List Word} {req : Request} (h : requestOf m ws = some req) (tag : Nat) :
    offerOf tag m (ws.map .lit) = ⟨tag, req.op, .lit req.a, .lit req.b, .lit req.c, .lit req.d⟩ := by
  obtain ⟨-, rfl⟩ := requestOf_eq_some h
  simp only [offerOf, expandOperands_map, List.getD_map]

/-- Settles O40: the sources of a statement's operands, in order, are its offer's. -/
theorem statementOperandsStandInPortOrder : Obligations.StatementOperandsStandInPortOrder := by
  refine ⟨?_, fun a b c d => ⟨rfl, rfl, rfl, rfl, rfl, rfl, rfl, rfl⟩, ?_, fun m ws h => if_neg h,
    fun earlier tag st => offer_of_wrong_count⟩
  · intro earlier tag label ow ox oy oz w x y z hw hx hy hz
    have h2 : sourcesOf earlier [ow, ox] = .ok [w, x] := sourcesOf_cons_ok hw (sourcesOf_cons_ok hx rfl)
    have h3 : sourcesOf earlier [ow, ox, oy] = .ok [w, x, y] :=
      sourcesOf_cons_ok hw (sourcesOf_cons_ok hx (sourcesOf_cons_ok hy rfl))
    have h4 : sourcesOf earlier [ow, ox, oy, oz] = .ok [w, x, y, z] :=
      sourcesOf_cons_ok hw (sourcesOf_cons_ok hx (sourcesOf_cons_ok hy (sourcesOf_cons_ok hz rfl)))
    exact ⟨offer_of_sources rfl h3, offer_of_sources rfl h3, offer_of_sources rfl h2, offer_of_sources rfl h2,
      offer_of_sources rfl h3, offer_of_sources rfl (sourcesOf_nil _), offer_of_sources rfl h3, offer_of_sources rfl h4⟩
  · intro earlier tag label m ws req h
    have hcount : (ws.map AsmOperand.lit).length = m.arity := by
      rw [List.length_map]; exact (requestOf_eq_some h).1
    rw [offer_of_sources hcount (sourcesOf_lits earlier ws), offerOf_lits h]

/-! ### Pseudo-instructions -/

theorem sourcesOf_lit_cons (earlier : List Earlier) (w : Word) (os : List AsmOperand) :
    sourcesOf earlier (.lit w :: os) = (sourcesOf earlier os).map (.lit w :: ·) := by
  simp only [sourcesOf, AsmOperand.source]
  cases sourcesOf earlier os <;> rfl

theorem sourcesOf_append_lit (earlier : List Earlier) (w : Word) (os : List AsmOperand) :
    sourcesOf earlier (os ++ [.lit w]) = (sourcesOf earlier os).map (· ++ [.lit w]) := by
  induction os with
  | nil => rfl
  | cons o os ih =>
    simp only [List.cons_append, sourcesOf, ih]
    cases o.source earlier with
    | error e => rfl
    | ok x => cases sourcesOf earlier os <;> rfl

/-- The sources of an expansion's operands are the expansion of the operands' sources, errors included. -/
theorem sourcesOf_expandOperands (earlier : List Earlier) (m : Mnemonic) (os : List AsmOperand) :
    sourcesOf earlier (expandOperands (.lit 0#64) m os) =
      (sourcesOf earlier os).map (expandOperands (.lit 0#64) m) := by
  cases m with
  | add | sub | vmov => exact sourcesOf_append_lit earlier 0#64 os
  | div64 => exact sourcesOf_lit_cons earlier 0#64 os
  | neg =>
    simp only [expandOperands, sourcesOf_lit_cons, sourcesOf_append_lit]
    cases sourcesOf earlier os <;> rfl
  | vneg =>
    simp only [expandOperands, sourcesOf_lit_cons]
    cases sourcesOf earlier os <;> rfl
  | adc | sbb | mulu | muls | divu | rdcyc | vshl | vsub =>
    simp only [expandOperands]
    cases sourcesOf earlier os <;> rfl

/-- A statement of `m` offers what the statement of `n` with the expanded operands offers, where `n` is one of the
eight operations and the one `m` requests. -/
theorem offer_of_expansion {earlier : List Earlier} {tag : Nat} {label : Option (List Char)} {m n : Mnemonic}
    {os : List AsmOperand} (hcount : os.length = m.arity)
    (hcount' : (expandOperands (.lit 0#64) m os).length = n.arity) (hop : m.opName = n.opName)
    (hkeeps : ∀ srcs : List Source, expandOperands (.lit 0#64) n srcs = srcs) :
    Statement.offer earlier tag ⟨label, m, os⟩ =
      Statement.offer earlier tag ⟨label, n, expandOperands (.lit 0#64) m os⟩ := by
  have hoffer (srcs : List Source) : offerOf tag m srcs = offerOf tag n (expandOperands (.lit 0#64) m srcs) := by
    simp only [offerOf, hop, hkeeps]
  rw [offer_of_count hcount, offer_of_count hcount', sourcesOf_expandOperands]
  cases sourcesOf earlier os with
  | error e => rfl
  | ok srcs => exact congrArg Except.ok (hoffer srcs)

/-- Settles O59: each pseudo-instruction requests its expansion's operation on its expansion's operands. -/
theorem pseudoStatementsOfferTheirExpansion : Obligations.PseudoStatementsOfferTheirExpansion := by
  intro earlier tag label x y
  exact ⟨offer_of_expansion rfl rfl rfl fun _ => rfl, offer_of_expansion rfl rfl rfl fun _ => rfl,
    offer_of_expansion rfl rfl rfl fun _ => rfl, offer_of_expansion rfl rfl rfl fun _ => rfl,
    offer_of_expansion rfl rfl rfl fun _ => rfl, offer_of_expansion rfl rfl rfl fun _ => rfl⟩

/-! ### Programs -/

/-- What later statements see of a statement under a tag. -/
def Statement.entry (st : Statement) (tag : Nat) : Option Earlier :=
  st.label.map fun l => ⟨l, tag, st.mnemonic.opName⟩

/-- The labelled statements of a program whose tags count from `tag`, newest first. -/
def earlierFrom (tag : Nat) (prog : List Statement) : List Earlier :=
  ((prog.zipIdx tag).filterMap fun x => x.1.entry x.2).reverse

theorem earlierOf_eq (prog : List Statement) : earlierOf prog = earlierFrom 0 prog := rfl

theorem earlierFrom_cons (tag : Nat) (st : Statement) (prog : List Statement) :
    earlierFrom tag (st :: prog) = earlierFrom (tag + 1) prog ++ (st.entry tag).toList := by
  rw [earlierFrom, List.zipIdx_cons]
  cases h : st.entry tag <;> simp [earlierFrom, h]

/-- A program that assembles: its first statement has an offer, and the rest assembles with that statement behind
it. -/
theorem assembleFrom_cons_ok {earlier : List Earlier} {tag : Nat} {st : Statement} {rest : List Statement}
    {offers : List Offer} (h : assembleFrom earlier tag (st :: rest) = .ok offers) :
    ∃ o os, offers = o :: os ∧ st.offer earlier tag = .ok o ∧
      assembleFrom ((st.entry tag).toList ++ earlier) (tag + 1) rest = .ok os := by
  simp only [assembleFrom] at h
  split at h
  · cases h
  · rename_i o ho
    split at h
    · cases h
    · rename_i os hos
      refine ⟨o, os, (Except.ok.inj h).symm, ho, ?_⟩
      cases hl : st.label <;> simpa [Statement.entry, hl] using hos

theorem assembleFrom_offers {prog : List Statement} : ∀ {earlier : List Earlier} {tag : Nat} {offers : List Offer},
    assembleFrom earlier tag prog = .ok offers →
    offers.length = prog.length ∧ ∀ (k : Nat) (st : Statement), prog[k]? = some st →
      ∃ o, offers[k]? = some o ∧ o.tag = tag + k ∧
        st.offer (earlierFrom tag (prog.take k) ++ earlier) (tag + k) = .ok o := by
  induction prog with
  | nil =>
    intro earlier tag offers h
    cases h
    exact ⟨rfl, fun k st hk => by simp at hk⟩
  | cons head rest ih =>
    intro earlier tag offers h
    obtain ⟨o, os, rfl, ho, hos⟩ := assembleFrom_cons_ok h
    obtain ⟨hlen, hrest⟩ := ih hos
    refine ⟨congrArg (· + 1) hlen, fun k st hk => ?_⟩
    cases k with
    | zero =>
      cases hk
      exact ⟨o, rfl, tag_of_offer ho, ho⟩
    | succ k =>
      obtain ⟨o', hat, htag, hoffer⟩ := hrest k st hk
      have hsucc : tag + (k + 1) = tag + 1 + k := by omega
      rw [hsucc, List.take_succ_cons, earlierFrom_cons, List.append_assoc]
      exact ⟨o', hat, htag, hoffer⟩

/-- Settles O60, by induction on the program, from any tag and behind any earlier statements. -/
theorem assembledStatementsReferToEarlierOnes : Obligations.AssembledStatementsReferToEarlierOnes := by
  intro prog offers h
  obtain ⟨hlen, hoffers⟩ := assembleFrom_offers h
  refine ⟨hlen, fun k st hk => ?_⟩
  simpa only [earlierOf_eq, Nat.zero_add, List.append_nil] using hoffers k st hk

end Sys2Proof.Machine
end

section
/-! PROOFS. 40_carry_borrow.md: ADC and SBB as exact sums and differences (R69, R72, R73, R76), their two-stage
realizations (R70, R74), and the laws that relate them and chain them (R77). -/

namespace Sys2Proof.Machine

/-! ### A word and a multiple of 2^64 -/

/-- Division with remainder by 2^64, in the terms of the ports: the word is the remainder. -/
theorem uint_add_mul_eq_iff {r : Word} {v m : Int} : uint r + 2 ^ 64 * m = v ↔ bits64 v = r ∧ m = v / 2 ^ 64 := by
  have hnonneg := uint_nonneg r
  have hlt := uint_lt r
  have hmod := uint_bits64 v
  constructor
  · intro h
    exact ⟨uint_injective (by omega), by omega⟩
  · rintro ⟨rfl, rfl⟩
    omega

theorem carryOut_toNat {s : Int} (h0 : 0 ≤ s) (h1 : s < 2 ^ 65) : ((carryOut s).toNat : Int) = s / 2 ^ 64 := by
  rw [carryOut]
  split <;> (rw [BitVec.toNat_ofNat]; omega)

theorem borrowOut_toNat {d : Int} (h0 : -2 ^ 64 ≤ d) (h1 : d < 2 ^ 64) : -((borrowOut d).toNat : Int) = d / 2 ^ 64 := by
  rw [borrowOut]
  split <;> (rw [BitVec.toNat_ofNat]; omega)

theorem flagged_eq_flagged_iff {r r' : Word} {f f' : BitVec 1} :
    flagged r f = flagged r' f' ↔ r = r' ∧ f.toNat = f'.toNat := by
  simp [flagged, BitVec.toNat_inj]

/-! ### ADC and SBB in their domain and outside it -/

/-- The check on port C (30_encoding.md R60), on the word's number. -/
theorem carryInRange_iff_toNat_le {c : Word} : carryInRange c = true ↔ c.toNat ≤ 1 := by
  rw [carryInRange, decide_eq_true_iff, uint_eq_toNat, Nat.cast_le_one]

/-- R69: in the domain ADC's response is the one whose R0 and FLAG make up the exact 65-bit sum. -/
theorem adcResponse_eq_flagged_iff {a b c r : Word} {f : BitVec 1} (hc : c.toNat ≤ 1) :
    adcResponse a b c = flagged r f ↔ uint r + 2 ^ 64 * f.toNat = uint a + uint b + uint c := by
  have hflag : ((carryOut (uint a + uint b + uint c)).toNat : Int) = (uint a + uint b + uint c) / 2 ^ 64 := by
    apply carryOut_toNat <;> simp only [uint_eq_toNat] <;> omega
  rw [adcResponse, if_pos (carryInRange_iff_toNat_le.2 hc), flagged_eq_flagged_iff, uint_add_mul_eq_iff, ← hflag,
    Nat.cast_inj, eq_comm (a := f.toNat)]

/-- R73: in the domain SBB's response is the one whose R0 and FLAG make up the exact difference. -/
theorem sbbResponse_eq_flagged_iff {a b c r : Word} {f : BitVec 1} (hc : c.toNat ≤ 1) :
    sbbResponse a b c = flagged r f ↔ uint r - 2 ^ 64 * f.toNat = uint a - uint b - uint c := by
  have hflag : -((borrowOut (uint a - uint b - uint c)).toNat : Int) = (uint a - uint b - uint c) / 2 ^ 64 := by
    apply borrowOut_toNat <;> simp only [uint_eq_toNat] <;> omega
  rw [sbbResponse, if_pos (carryInRange_iff_toNat_le.2 hc), flagged_eq_flagged_iff, sub_eq_add_neg (uint r), ← mul_neg,
    uint_add_mul_eq_iff, ← hflag, neg_inj, Nat.cast_inj, eq_comm (a := f.toNat)]

theorem exists_adcResponse_eq_flagged (a b : Word) {c : Word} (hc : c.toNat ≤ 1) :
    ∃ (r : Word) (f : BitVec 1),
      adcResponse a b c = flagged r f ∧ uint r + 2 ^ 64 * f.toNat = uint a + uint b + uint c :=
  have h : adcResponse a b c = flagged _ _ := if_pos (carryInRange_iff_toNat_le.2 hc)
  ⟨_, _, h, (adcResponse_eq_flagged_iff hc).1 h⟩

theorem exists_sbbResponse_eq_flagged (a b : Word) {c : Word} (hc : c.toNat ≤ 1) :
    ∃ (r : Word) (f : BitVec 1),
      sbbResponse a b c = flagged r f ∧ uint r - 2 ^ 64 * f.toNat = uint a - uint b - uint c :=
  have h : sbbResponse a b c = flagged _ _ := if_pos (carryInRange_iff_toNat_le.2 hc)
  ⟨_, _, h, (sbbResponse_eq_flagged_iff hc).1 h⟩

theorem adcResponse_of_two_le {a b c : Word} (hc : 2 ≤ c.toNat) : adcResponse a b c = raiseFault .carryInRange :=
  if_neg fun h => absurd (carryInRange_iff_toNat_le.1 h) (Nat.not_le.2 hc)

theorem sbbResponse_of_two_le {a b c : Word} (hc : 2 ≤ c.toNat) : sbbResponse a b c = raiseFault .carryInRange :=
  if_neg fun h => absurd (carryInRange_iff_toNat_le.1 h) (Nat.not_le.2 hc)

/-- Settles O20: ADC's response makes up the exact sum in the domain and is the fault outside it. -/
theorem adcGivesTheExactSum : Obligations.AdcGivesTheExactSum := by
  refine fun a b c d s => ⟨rfl, fun hc => ?_, fun hc => exec_eq_of_responseOf (adcResponse_of_two_le hc)⟩
  obtain ⟨r, f, hresponse, hsum⟩ := exists_adcResponse_eq_flagged a b hc
  exact ⟨r, f, exec_eq_of_responseOf hresponse, by simp only [uint_eq_toNat] at hsum; omega⟩

/-- Settles O21: SBB's response makes up the exact difference in the domain and is the fault outside it. -/
theorem sbbGivesTheExactDifference : Obligations.SbbGivesTheExactDifference := by
  refine fun a b c d s => ⟨rfl, fun hc => ?_, fun hc => exec_eq_of_responseOf (sbbResponse_of_two_le hc)⟩
  obtain ⟨r, f, hresponse, hdiff⟩ := exists_sbbResponse_eq_flagged a b hc
  exact ⟨r, f, exec_eq_of_responseOf hresponse, hdiff⟩

/-! ### The two-stage algorithms (R70, R74) -/

/-- One stage of R70: the sum of two words wrapped iff it is below one of them. -/
theorem uint_bits64_add_stage (x y : Word) :
    uint (bits64 (uint x + uint y)) + 2 ^ 64 * (decide (uint (bits64 (uint x + uint y)) < uint y)).toNat =
      uint x + uint y := by
  rw [uint_bits64, uint_eq_toNat, uint_eq_toNat]
  by_cases hwrap : (x.toNat + y.toNat : Int) % 2 ^ 64 < y.toNat
  · rw [decide_eq_true hwrap, Bool.toNat_true]; omega
  · rw [decide_eq_false hwrap, Bool.toNat_false]; omega

/-- One stage of R74: the difference of two words wrapped iff the first is below the second. -/
theorem uint_bits64_sub_stage (x y : Word) :
    uint (bits64 (uint x - uint y)) - 2 ^ 64 * (decide (uint x < uint y)).toNat = uint x - uint y := by
  rw [uint_bits64, uint_eq_toNat, uint_eq_toNat]
  by_cases hborrow : (x.toNat : Int) < y.toNat
  · rw [decide_eq_true hborrow, Bool.toNat_true]; omega
  · rw [decide_eq_false hborrow, Bool.toNat_false]; omega

theorem toNat_decide_or {p q : Prop} [Decidable p] [Decidable q] (h : ¬ (p ∧ q)) :
    (decide p || decide q).toNat = (decide p).toNat + (decide q).toNat := by
  by_cases hp : p
  · have hq : ¬ q := fun hq => h ⟨hp, hq⟩
    simp [hp, hq]
  · simp [hp]

/-- R70: a first stage that wraps leaves a sum of at most 2^64 - 2, so adding the carry-in does not wrap again. -/
theorem not_both_stage_carries {a b c : Word} (hc : c.toNat ≤ 1) :
    ¬ (uint (bits64 (uint a + uint b)) < uint a ∧
       uint (bits64 (uint (bits64 (uint a + uint b)) + uint c)) < uint c) := by
  rintro ⟨hcarry1, hcarry2⟩
  have hstage1 := uint_bits64_add_stage b a
  have hstage2 := uint_bits64_add_stage (bits64 (uint a + uint b)) c
  rw [add_comm (uint b), decide_eq_true hcarry1, Bool.toNat_true] at hstage1
  rw [decide_eq_true hcarry2, Bool.toNat_true] at hstage2
  have hc' : uint c ≤ 1 := by rw [uint_eq_toNat]; omega
  have := uint_nonneg (bits64 (uint (bits64 (uint a + uint b)) + uint c))
  have := uint_lt a
  have := uint_lt b
  omega

/-- R74: a first stage that borrows leaves a difference of at least 1, so the borrow-in does not borrow again. -/
theorem not_both_stage_borrows {a b c : Word} (hc : c.toNat ≤ 1) :
    ¬ (uint a < uint b ∧ uint (bits64 (uint a - uint b)) < uint c) := by
  rintro ⟨hborrow1, hborrow2⟩
  have hstage1 := uint_bits64_sub_stage a b
  rw [decide_eq_true hborrow1, Bool.toNat_true] at hstage1
  have := uint_nonneg a
  have := uint_lt b
  rw [uint_eq_toNat c] at hborrow2
  omega

theorem adcResponse_eq_adcTwoStage {a b c : Word} (hc : c.toNat ≤ 1) :
    adcResponse a b c = flagged (adcTwoStage a b c).1 (BitVec.ofBool (adcTwoStage a b c).2) := by
  rw [adcResponse_eq_flagged_iff hc, BitVec.toNat_ofBool, adcTwoStage, toNat_decide_or (not_both_stage_carries hc),
    Nat.cast_add]
  have hstage1 := uint_bits64_add_stage b a
  rw [add_comm (uint b)] at hstage1
  linear_combination hstage1 + uint_bits64_add_stage (bits64 (uint a + uint b)) c

theorem sbbResponse_eq_sbbTwoStage {a b c : Word} (hc : c.toNat ≤ 1) :
    sbbResponse a b c = flagged (sbbTwoStage a b c).1 (BitVec.ofBool (sbbTwoStage a b c).2) := by
  rw [sbbResponse_eq_flagged_iff hc, BitVec.toNat_ofBool, sbbTwoStage, toNat_decide_or (not_both_stage_borrows hc),
    Nat.cast_add]
  linear_combination uint_bits64_sub_stage a b + uint_bits64_sub_stage (bits64 (uint a - uint b)) c

theorem answerAt_eq_of_responseOf {s : State} {i : Instr} {rsp : Response} (h : responseOf i s.cnt = rsp) :
    answerAt s i = some rsp := h ▸ answerAt_eq s i

/-- Settles O41: the sums of the two stages, of which at most one wraps, add up to ADC's exact sum. -/
theorem adcIsTheTwoStageAlgorithm : Obligations.AdcIsTheTwoStageAlgorithm :=
  fun _ _ _ _ hc => ⟨answerAt_eq_of_responseOf (adcResponse_eq_adcTwoStage hc), not_both_stage_carries hc⟩

/-- Settles O42: the differences of the two stages, of which at most one borrows, add up to SBB's exact difference. -/
theorem sbbIsTheTwoStageAlgorithm : Obligations.SbbIsTheTwoStageAlgorithm :=
  fun _ _ _ _ hc => ⟨answerAt_eq_of_responseOf (sbbResponse_eq_sbbTwoStage hc), not_both_stage_borrows hc⟩

/-! ### SBB as ADC of the complement (R77) -/

/-- a + (2^64 - 1 - b) + (1 - k) is a - b - k with 2^64 added, which turns the borrow into its opposite. -/
theorem adcResponse_complement {a b k r : Word} {f : BitVec 1} (hk : k.toNat ≤ 1)
    (h : sbbResponse a b k = flagged r f) :
    adcResponse a (bits64 (2 ^ 64 - 1 - uint b)) (bits64 (1 - uint k)) = flagged r (~~~f) := by
  have hdiff := (sbbResponse_eq_flagged_iff hk).1 h
  have hb : uint (bits64 (2 ^ 64 - 1 - uint b)) = 2 ^ 64 - 1 - uint b :=
    uint_bits64_of_range (by have := uint_lt b; omega) (by have := uint_nonneg b; omega)
  have hk' : uint (bits64 (1 - uint k)) = 1 - uint k :=
    uint_bits64_of_range (by rw [uint_eq_toNat]; omega) (by have := uint_nonneg k; omega)
  have hcarry : (bits64 (1 - uint k)).toNat ≤ 1 := by
    have := uint_nonneg k
    rw [uint_eq_toNat] at hk'
    omega
  have hflag : ((~~~f).toNat : Int) = 1 - f.toNat := by
    have := f.isLt
    rw [BitVec.toNat_not]
    omega
  rw [adcResponse_eq_flagged_iff hcarry, hb, hk', hflag]
  linear_combination hdiff

/-- Settles O48: both responses are given by the same word and opposite flags. -/
theorem sbbIsAdcOfTheComplement : Obligations.SbbIsAdcOfTheComplement := by
  intro a b k s hk
  obtain ⟨r, f, hsbb, -⟩ := exists_sbbResponse_eq_flagged a b hk
  exact ⟨r, f, answerAt_eq_of_responseOf hsbb, answerAt_eq_of_responseOf (adcResponse_complement hk hsbb)⟩

/-! ### Chains (R68, R77) -/

/-- One link of a chain is exact, whatever FLAG it takes in: an operation that adds, for `sign` 1, or subtracts, for
`sign` -1, its second operand and the incoming FLAG. -/
def LinkExact (op : Word → Word → Word → Instr) (sign : Int) : Prop :=
  ∀ x y k cnt : Word, k.toNat ≤ 1 → ∃ (r : Word) (f : BitVec 1), responseOf (op x y k) cnt = flagged r f ∧
    uint r + sign * (2 ^ 64 * f.toNat) = uint x + sign * (uint y + uint k)

theorem linkExact_adc : LinkExact (fun x y k => .adc x y k 0#64) 1 := by
  intro x y k cnt hk
  obtain ⟨r, f, hresponse, hsum⟩ := exists_adcResponse_eq_flagged x y hk
  exact ⟨r, f, hresponse, by linear_combination hsum⟩

theorem linkExact_sbb : LinkExact (fun x y k => .sbb x y k 0#64) (-1) := by
  intro x y k cnt hk
  obtain ⟨r, f, hresponse, hdiff⟩ := exists_sbbResponse_eq_flagged x y hk
  exact ⟨r, f, hresponse, by linear_combination hdiff⟩

theorem chain_cons_of_flagged {s : State} {op : Word → Word → Word → Instr} {x y k r : Word} {f : BitVec 1}
    (h : responseOf (op x y k) s.cnt = flagged r f) (rest : List (Word × Word)) :
    chain s op k ((x, y) :: rest) =
      (chain s op (f.setWidth 64) rest).map (fun out => (r :: out.1, out.2)) := by
  rw [chain, answerAt_eq_of_responseOf h]
  rfl

/-- R77: exact links make an exact chain, by induction on the words from any incoming FLAG: the first link's FLAG stands
at weight 2^64 in its own equation, and 2^64 times the rest's equation takes it in. -/
theorem chain_exact {op : Word → Word → Word → Instr} {sign : Int} (hlink : LinkExact op sign) (s : State)
    (words : List (Word × Word)) : ∀ k : Word, k.toNat ≤ 1 → ∃ (out : List Word) (last : Word),
      chain s op k words = some (out, last) ∧ out.length = words.length ∧ last.toNat ≤ 1 ∧
      (wordsValue out : Int) + sign * (2 ^ (64 * words.length) * last.toNat) =
        wordsValue (words.map Prod.fst) + sign * (wordsValue (words.map Prod.snd) + k.toNat) := by
  induction words with
  | nil => exact fun k hk => ⟨[], k, rfl, rfl, hk, by simp [wordsValue]⟩
  | cons xy rest ih =>
    intro k hk
    obtain ⟨x, y⟩ := xy
    obtain ⟨r, f, hresponse, hfirst⟩ := hlink x y k s.cnt hk
    have hflag : (f.setWidth 64).toNat = f.toNat := BitVec.toNat_setWidth_of_le (by decide)
    obtain ⟨out, last, hchain, hlen, hlast, hrest⟩ := ih (f.setWidth 64) (by omega)
    refine ⟨r :: out, last, ?_, congrArg (· + 1) hlen, hlast, ?_⟩
    · rw [chain_cons_of_flagged hresponse, hchain]
      rfl
    · rw [hflag] at hrest
      simp only [uint_eq_toNat] at hfirst
      simp only [wordsValue, List.map_cons, List.length_cons]
      push_cast
      linear_combination hfirst + 2 ^ 64 * hrest

/-- Settles O49: the links of the chain are exact sums. -/
theorem adcChainIsTheExactSum : Obligations.AdcChainIsTheExactSum := by
  intro s words
  obtain ⟨sum, carry, hchain, hlen, hcarry, hvalue⟩ := chain_exact linkExact_adc s words 0#64 (by decide)
  refine ⟨sum, carry, hchain, hlen, hcarry, ?_⟩
  rw [BitVec.toNat_zero] at hvalue
  zify
  linear_combination hvalue

/-- Settles O50: the links of the chain are exact differences. -/
theorem sbbChainIsTheExactDifference : Obligations.SbbChainIsTheExactDifference := by
  intro s words
  obtain ⟨diff, borrow, hchain, hlen, hborrow, hvalue⟩ := chain_exact linkExact_sbb s words 0#64 (by decide)
  refine ⟨diff, borrow, hchain, hlen, hborrow, ?_⟩
  rw [BitVec.toNat_zero] at hvalue
  linear_combination hvalue

end Sys2Proof.Machine
end

section
/-! PROOFS. 41_multiply.md: MULU and MULS as exact 128-bit products (R78, R82), commutative (R80, R86), the limb
algorithm of R79, and MULS through MULU (R84). -/

namespace Sys2Proof.Machine

/-! ### Halves of a wide value, and words read as two's complement -/

theorem bits64_add_mul (v k : Int) : bits64 (v + 2 ^ 64 * k) = bits64 v := by
  apply uint_injective
  rw [uint_bits64, uint_bits64, Int.add_mul_emod_self_left]

theorem joinHalves_halves (q : WideWord) : joinHalves (highHalf q) (lowHalf q) = q := by
  rw [joinHalves, highHalf, lowHalf, BitVec.extractLsb'_append_extractLsb'_eq_extractLsb' (Nat.zero_add 64).symm]
  exact BitVec.extractLsb'_eq_self

theorem lowHalf_bits128 (v : Int) : lowHalf (bits128 v) = bits64 v := by
  apply uint_injective
  rw [uint_bits64, uint_eq_toNat, lowHalf, BitVec.extractLsb'_toNat, bits128, BitVec.toNat_ofInt, Nat.shiftRight_zero]
  omega

theorem highHalf_bits128 (v : Int) : highHalf (bits128 v) = bits64 (v / 2 ^ 64) := by
  apply uint_injective
  rw [uint_bits64, uint_eq_toNat, highHalf, BitVec.extractLsb'_toNat, bits128, BitVec.toNat_ofInt,
    Nat.shiftRight_eq_div_pow]
  omega

/-- Two's complement (00_scope.md R14): bit 63 weighs -2^63 where `uint` has it weigh 2^63. -/
theorem sint_eq (x : Word) : sint x = uint x - 2 ^ 64 * (x.getLsbD 63).toNat := by
  rw [sint, BitVec.toInt_eq_msb_cond, BitVec.msb_eq_getLsbD_last, uint_eq_toNat]
  cases x.getLsbD 63 <;> simp

theorem sint_ge (x : Word) : -2 ^ 63 ≤ sint x := BitVec.le_toInt x

theorem sint_lt (x : Word) : sint x < 2 ^ 63 := BitVec.toInt_lt

@[simp] theorem bits64_sint (x : Word) : bits64 (sint x) = x := BitVec.ofInt_toInt

/-! ### Exact products (R78, R82) -/

theorem paired_eq_paired_iff {r0 r1 r0' r1' : Word} : paired r0 r1 = paired r0' r1' ↔ r0 = r0' ∧ r1 = r1' := by
  simp [paired]

theorem uint_mul_uint_nonneg (a b : Word) : 0 ≤ uint a * uint b := mul_nonneg (uint_nonneg a) (uint_nonneg b)

/-- The high half of an unsigned product fits in a word. -/
theorem uint_bits64_mul_div (a b : Word) : uint (bits64 (uint a * uint b / 2 ^ 64)) = uint a * uint b / 2 ^ 64 := by
  have hlt : uint a * uint b < 2 ^ 64 * 2 ^ 64 :=
    mul_lt_mul'' (uint_lt a) (uint_lt b) (uint_nonneg a) (uint_nonneg b)
  exact uint_bits64_of_range (Int.ediv_nonneg (uint_mul_uint_nonneg a b) (by decide))
    (Int.ediv_lt_of_lt_mul (by decide) hlt)

/-- R78: MULU's response is the one whose R0 and R1 make up the exact product. -/
theorem muluResponse_eq_paired_iff {a b low high : Word} :
    muluResponse a b = paired low high ↔ uint low + 2 ^ 64 * uint high = uint a * uint b := by
  have hhigh : bits64 (uint a * uint b / 2 ^ 64) = high ↔ uint high = uint a * uint b / 2 ^ 64 :=
    ⟨fun h => h ▸ uint_bits64_mul_div a b, fun h => uint_injective ((uint_bits64_mul_div a b).trans h.symm)⟩
  rw [muluResponse, paired_eq_paired_iff, uint_add_mul_eq_iff, hhigh]

theorem exists_muluResponse_eq_paired (a b : Word) :
    ∃ low high : Word, muluResponse a b = paired low high ∧ uint low + 2 ^ 64 * uint high = uint a * uint b :=
  ⟨_, _, rfl, muluResponse_eq_paired_iff.1 rfl⟩

/-- R84: the range of a signed product. Each operand's distances to the ends of its range are not negative, so neither
are their products, which bound the product of the operands. -/
theorem sint_mul_sint_range (a b : Word) :
    -2 ^ 126 + 2 ^ 63 ≤ sint a * sint b ∧ sint a * sint b ≤ 2 ^ 126 := by
  have ha : 0 ≤ sint a + 2 ^ 63 := by have := sint_ge a; omega
  have hb : 0 ≤ sint b + 2 ^ 63 := by have := sint_ge b; omega
  have ha' : 0 ≤ 2 ^ 63 - 1 - sint a := by have := sint_lt a; omega
  have hb' : 0 ≤ 2 ^ 63 - 1 - sint b := by have := sint_lt b; omega
  constructor
  · linarith only [mul_nonneg ha hb, mul_nonneg ha' hb']
  · linarith only [mul_nonneg ha hb', mul_nonneg ha' hb, ha, hb]

/-- R84: every signed product fits in 128-bit two's complement, so its pattern reads back as the product. -/
theorem toInt_bits128_mul (a b : Word) : (bits128 (sint a * sint b)).toInt = sint a * sint b := by
  obtain ⟨hge, hle⟩ := sint_mul_sint_range a b
  exact BitVec.toInt_ofInt_eq_self (by decide) (by omega) (by omega)

/-- MULS's response as MULU's with the signed product: the halves of the pattern are the product's remainder and
quotient by 2^64. -/
theorem mulsResponse_eq (a b : Word) :
    mulsResponse a b = paired (bits64 (sint a * sint b)) (bits64 (sint a * sint b / 2 ^ 64)) := by
  rw [mulsResponse, lowHalf_bits128, highHalf_bits128]

/-- Settles O22: MULU's two words make up the exact product. -/
theorem muluGivesTheExactProduct : Obligations.MuluGivesTheExactProduct := by
  intro a b c d s
  obtain ⟨low, high, hresponse, hproduct⟩ := exists_muluResponse_eq_paired a b
  refine ⟨rfl, low, high, exec_eq_of_responseOf hresponse, ?_⟩
  simp only [uint_eq_toNat] at hproduct
  zify
  linear_combination hproduct

/-- Settles O23: MULS's two words are the halves of a pattern that reads back as the signed product. -/
theorem mulsGivesTheExactSignedProduct : Obligations.MulsGivesTheExactSignedProduct := by
  intro a b c d s
  refine ⟨rfl, _, _, exec_eq_of_responseOf rfl, ?_⟩
  rw [joinHalves_halves]
  exact toInt_bits128_mul a b

/-! ### Commutativity, and MULS by 1 (R80, R86) -/

theorem muluResponse_comm (a b : Word) : muluResponse a b = muluResponse b a := by
  rw [muluResponse, muluResponse, mul_comm]

theorem mulsResponse_comm (a b : Word) : mulsResponse a b = mulsResponse b a := by
  rw [mulsResponse, mulsResponse, mul_comm]

/-- The high half of a word's sign-extension to 128 bits repeats its sign bit. -/
theorem bits64_sint_div (x : Word) :
    bits64 (sint x / 2 ^ 64) = if x.getLsbD 63 then 0xFFFFFFFFFFFFFFFF#64 else 0#64 := by
  have hnonneg := uint_nonneg x
  have hlt := uint_lt x
  have hsint := sint_eq x
  cases hsign : x.getLsbD 63 with
  | false =>
    have hdiv : sint x / 2 ^ 64 = 0 := by rw [hsign, Bool.toNat_false] at hsint; omega
    rw [hdiv]
    rfl
  | true =>
    have hdiv : sint x / 2 ^ 64 = -1 := by rw [hsign, Bool.toNat_true] at hsint; omega
    rw [hdiv]
    rfl

theorem mulsResponse_one (x : Word) :
    mulsResponse x 1#64 = paired x (if x.getLsbD 63 then 0xFFFFFFFFFFFFFFFF#64 else 0#64) := by
  have hone : sint 1#64 = 1 := by decide
  rw [mulsResponse_eq, hone, mul_one, bits64_sint, bits64_sint_div]

/-- Settles O45: the products commute, and a product by 1 is its other factor. -/
theorem multipliesCommute : Obligations.MultipliesCommute := by
  intro a b s
  refine ⟨?_, ?_, answerAt_eq_of_responseOf (mulsResponse_one a)⟩
  · rw [answerAt_eq, answerAt_eq]
    exact congrArg some (muluResponse_comm a b)
  · rw [answerAt_eq, answerAt_eq]
    exact congrArg some (mulsResponse_comm a b)

/-! ### MULS through MULU (R84) -/

/-- R84's corrections of the high half, with the sign bits as factors. -/
theorem mulsHighFrom_eq (a b high : Word) :
    mulsHighFrom a b high =
      bits64 (uint high - (a.getLsbD 63).toNat * uint b - (b.getLsbD 63).toNat * uint a) := by
  have hite (sign : Bool) (v : Int) : (if sign then v else 0) = sign.toNat * v := by cases sign <;> simp
  rw [mulsHighFrom, hite, hite]

/-- The signed product is the unsigned one with a correction in whole multiples of 2^64 (`sint_eq` multiplied out). -/
theorem sint_mul_sint_eq (a b : Word) :
    sint a * sint b = uint a * uint b + 2 ^ 64 * (-(a.getLsbD 63).toNat * uint b - (b.getLsbD 63).toNat * uint a +
      2 ^ 64 * ((a.getLsbD 63).toNat * (b.getLsbD 63).toNat)) := by
  rw [sint_eq, sint_eq]
  ring

/-- R84: MULS has MULU's R0, and the correction of the product lands in R1, modulo 2^64. -/
theorem mulsResponse_eq_mulsHighFrom {a b low high : Word} (h : muluResponse a b = paired low high) :
    mulsResponse a b = paired low (mulsHighFrom a b high) := by
  obtain ⟨hlow, hhigh⟩ := paired_eq_paired_iff.1 h
  have hhigh' : uint high = uint a * uint b / 2 ^ 64 := by rw [← hhigh, uint_bits64_mul_div]
  rw [mulsResponse_eq, paired_eq_paired_iff, mulsHighFrom_eq, hhigh', sint_mul_sint_eq,
    Int.add_mul_ediv_left _ _ (by decide), bits64_add_mul, ← add_assoc, bits64_add_mul]
  exact ⟨hlow, congrArg bits64 (by ring)⟩

/-- R84: in the range of signed products bits 127 and 126 differ only at the upper end. -/
theorem top_bits_differ_iff {q : WideWord} (hge : -2 ^ 126 ≤ q.toInt) (hle : q.toInt ≤ 2 ^ 126) :
    q.getLsbD 127 ≠ q.getLsbD 126 ↔ q.toInt = 2 ^ 126 := by
  have hlt := q.isLt
  have hvalue := BitVec.toInt_eq_toNat_cond q
  simp only [BitVec.getLsbD, Nat.testBit_eq_decide_div_mod_eq, ne_eq, decide_eq_decide]
  split at hvalue <;> omega

/-- Settles O44: MULS's response through MULU's, and the range and the top bits of its product's pattern. -/
theorem mulsFollowsFromMulu : Obligations.MulsFollowsFromMulu := by
  intro a b s
  obtain ⟨low, highU, hmulu, -⟩ := exists_muluResponse_eq_paired a b
  have hmuls := mulsResponse_eq_mulsHighFrom hmulu
  obtain ⟨hge, hle⟩ := sint_mul_sint_range a b
  refine ⟨low, highU, mulsHighFrom a b highU, answerAt_eq_of_responseOf hmulu, answerAt_eq_of_responseOf hmuls, rfl,
    hge, hle, ?_⟩
  have hpattern : joinHalves (mulsHighFrom a b highU) low = bits128 (sint a * sint b) := by
    obtain ⟨hlow, hhigh⟩ := paired_eq_paired_iff.1 hmuls
    rw [← hlow, ← hhigh, joinHalves_halves]
  have hvalue := toInt_bits128_mul a b
  rw [hpattern, top_bits_differ_iff (by omega) (by omega), hvalue]

/-! ### The limb algorithm (R79) -/

theorem lowLimb_toNat (x : Word) : (lowLimb x).toNat = x.toNat % 2 ^ 32 := by
  rw [lowLimb, BitVec.toNat_and]
  exact Nat.and_two_pow_sub_one_eq_mod x.toNat 32

theorem highLimb_toNat (x : Word) : (highLimb x).toNat = x.toNat / 2 ^ 32 := by
  rw [highLimb, BitVec.toNat_ushiftRight, Nat.shiftRight_eq_div_pow]

theorem lowLimb_toNat_lt (x : Word) : (lowLimb x).toNat < 2 ^ 32 := by
  rw [lowLimb_toNat]
  exact Nat.mod_lt _ (by decide)

theorem highLimb_toNat_lt (x : Word) : (highLimb x).toNat < 2 ^ 32 := by
  have := x.isLt
  rw [highLimb_toNat]
  omega

/-- A product of two limbs does not wrap. -/
theorem toNat_mul_of_limbs {x y : Word} (hx : x.toNat < 2 ^ 32) (hy : y.toNat < 2 ^ 32) :
    (x * y).toNat = x.toNat * y.toNat ∧ (x * y).toNat ≤ (2 ^ 32 - 1) ^ 2 := by
  have hle : x.toNat * y.toNat ≤ (2 ^ 32 - 1) * (2 ^ 32 - 1) :=
    Nat.mul_le_mul (Nat.le_sub_one_of_lt hx) (Nat.le_sub_one_of_lt hy)
  have hexact : (x * y).toNat = x.toNat * y.toNat := BitVec.toNat_mul_of_lt (hle.trans_lt (by decide))
  exact ⟨hexact, hexact ▸ hle⟩

/-- Adding a limb to a product of two limbs does not wrap: (2^32 - 1)^2 + (2^32 - 1) = 2^64 - 2^32. -/
theorem toNat_add_limb {x y : Word} (hx : x.toNat ≤ (2 ^ 32 - 1) ^ 2) (hy : y.toNat < 2 ^ 32) :
    (x + y).toNat = x.toNat + y.toNat ∧ (x + y).toNat ≤ 2 ^ 64 - 2 ^ 32 := by
  have hexact : (x + y).toNat = x.toNat + y.toNat := BitVec.toNat_add_of_lt (by omega)
  exact ⟨hexact, by omega⟩

theorem muluLimbs_ll (a b : Word) : (muluLimbs a b).ll.toNat = a.toNat % 2 ^ 32 * (b.toNat % 2 ^ 32) ∧
    (muluLimbs a b).ll.toNat ≤ (2 ^ 32 - 1) ^ 2 :=
  lowLimb_toNat a ▸ lowLimb_toNat b ▸ toNat_mul_of_limbs (lowLimb_toNat_lt a) (lowLimb_toNat_lt b)

theorem muluLimbs_hl (a b : Word) : (muluLimbs a b).hl.toNat = a.toNat / 2 ^ 32 * (b.toNat % 2 ^ 32) ∧
    (muluLimbs a b).hl.toNat ≤ (2 ^ 32 - 1) ^ 2 :=
  highLimb_toNat a ▸ lowLimb_toNat b ▸ toNat_mul_of_limbs (highLimb_toNat_lt a) (lowLimb_toNat_lt b)

theorem muluLimbs_lh (a b : Word) : (muluLimbs a b).lh.toNat = a.toNat % 2 ^ 32 * (b.toNat / 2 ^ 32) ∧
    (muluLimbs a b).lh.toNat ≤ (2 ^ 32 - 1) ^ 2 :=
  lowLimb_toNat a ▸ highLimb_toNat b ▸ toNat_mul_of_limbs (lowLimb_toNat_lt a) (highLimb_toNat_lt b)

theorem muluLimbs_hh (a b : Word) : (muluLimbs a b).hh.toNat = a.toNat / 2 ^ 32 * (b.toNat / 2 ^ 32) ∧
    (muluLimbs a b).hh.toNat ≤ (2 ^ 32 - 1) ^ 2 :=
  highLimb_toNat a ▸ highLimb_toNat b ▸ toNat_mul_of_limbs (highLimb_toNat_lt a) (highLimb_toNat_lt b)

theorem muluLimbs_mid1 (a b : Word) :
    (muluLimbs a b).mid1.toNat = (muluLimbs a b).hl.toNat + (muluLimbs a b).ll.toNat / 2 ^ 32 ∧
    (muluLimbs a b).mid1.toNat ≤ 2 ^ 64 - 2 ^ 32 :=
  highLimb_toNat (muluLimbs a b).ll ▸ toNat_add_limb (muluLimbs_hl a b).2 (highLimb_toNat_lt (muluLimbs a b).ll)

theorem muluLimbs_mid2 (a b : Word) :
    (muluLimbs a b).mid2.toNat = (muluLimbs a b).lh.toNat + (muluLimbs a b).mid1.toNat % 2 ^ 32 ∧
    (muluLimbs a b).mid2.toNat ≤ 2 ^ 64 - 2 ^ 32 :=
  lowLimb_toNat (muluLimbs a b).mid1 ▸ toNat_add_limb (muluLimbs_lh a b).2 (lowLimb_toNat_lt (muluLimbs a b).mid1)

/-- The last line of R79 does not wrap: (2^32 - 1)^2 + 2 * (2^32 - 1) = 2^64 - 1. -/
theorem muluLimbs_high (a b : Word) :
    (muluLimbs a b).high.toNat =
      (muluLimbs a b).hh.toNat + (muluLimbs a b).mid1.toNat / 2 ^ 32 + (muluLimbs a b).mid2.toNat / 2 ^ 32 := by
  obtain ⟨hfirst, hfirst_le⟩ := toNat_add_limb (muluLimbs_hh a b).2 (highLimb_toNat_lt (muluLimbs a b).mid1)
  have hmid2 := highLimb_toNat_lt (muluLimbs a b).mid2
  have hlt : ((muluLimbs a b).hh + highLimb (muluLimbs a b).mid1).toNat + (highLimb (muluLimbs a b).mid2).toNat <
      2 ^ 64 := by omega
  have hexact := BitVec.toNat_add_of_lt hlt
  rwa [hfirst, highLimb_toNat, highLimb_toNat] at hexact

/-- A shifted word and a limb have no bit in common, so `|` puts them side by side. -/
theorem toNat_shiftLeft_or_lowLimb (x y : Word) :
    (x <<< 32 ||| lowLimb y).toNat = 2 ^ 32 * (x.toNat % 2 ^ 32) + y.toNat % 2 ^ 32 := by
  have hshift : (x <<< 32).toNat = 2 ^ 32 * (x.toNat % 2 ^ 32) := by
    rw [BitVec.toNat_shiftLeft, Nat.shiftLeft_eq]
    omega
  rw [BitVec.toNat_or, hshift, ← Nat.two_pow_add_eq_or_of_lt (lowLimb_toNat_lt y), lowLimb_toNat]

theorem muluLimbs_low (a b : Word) :
    (muluLimbs a b).low.toNat =
      2 ^ 32 * ((muluLimbs a b).mid2.toNat % 2 ^ 32) + (muluLimbs a b).ll.toNat % 2 ^ 32 :=
  toNat_shiftLeft_or_lowLimb (muluLimbs a b).mid2 (muluLimbs a b).ll

/-- The carries that `mid1` and `mid2` split off are all taken in again: low and high make up the sum of the partial
products at their weights. -/
theorem muluLimbs_low_add_high (a b : Word) :
    (muluLimbs a b).low.toNat + 2 ^ 64 * (muluLimbs a b).high.toNat =
      (muluLimbs a b).ll.toNat + 2 ^ 32 * ((muluLimbs a b).hl.toNat + (muluLimbs a b).lh.toNat) +
        2 ^ 64 * (muluLimbs a b).hh.toNat := by
  obtain ⟨hmid1, -⟩ := muluLimbs_mid1 a b
  obtain ⟨hmid2, -⟩ := muluLimbs_mid2 a b
  rw [muluLimbs_low, muluLimbs_high]
  omega

/-- The sum of the partial products at their weights is the product of the words split into limbs. -/
theorem muluLimbs_product (a b : Word) :
    (muluLimbs a b).low.toNat + 2 ^ 64 * (muluLimbs a b).high.toNat = a.toNat * b.toNat := by
  rw [muluLimbs_low_add_high, (muluLimbs_ll a b).1, (muluLimbs_hl a b).1, (muluLimbs_lh a b).1, (muluLimbs_hh a b).1]
  calc _ = (2 ^ 32 * (a.toNat / 2 ^ 32) + a.toNat % 2 ^ 32) * (2 ^ 32 * (b.toNat / 2 ^ 32) + b.toNat % 2 ^ 32) := by
        ring
    _ = a.toNat * b.toNat := by rw [Nat.div_add_mod, Nat.div_add_mod]

theorem muluResponse_eq_muluLimbs (a b : Word) :
    muluResponse a b = paired (muluLimbs a b).low (muluLimbs a b).high :=
  muluResponse_eq_paired_iff.2 (by simpa only [uint_eq_toNat] using mod_cast muluLimbs_product a b)

/-- Settles O43: the limb algorithm's words make up the exact product, and each line is the exact sum or product. -/
theorem muluIsTheLimbAlgorithm : Obligations.MuluIsTheLimbAlgorithm := by
  intro a b s
  obtain ⟨hll, hll_le⟩ := muluLimbs_ll a b
  obtain ⟨hhl, hhl_le⟩ := muluLimbs_hl a b
  obtain ⟨hlh, hlh_le⟩ := muluLimbs_lh a b
  obtain ⟨hhh, hhh_le⟩ := muluLimbs_hh a b
  obtain ⟨hmid1, hmid1_le⟩ := muluLimbs_mid1 a b
  obtain ⟨hmid2, hmid2_le⟩ := muluLimbs_mid2 a b
  exact ⟨answerAt_eq_of_responseOf (muluResponse_eq_muluLimbs a b), hll, hhl, hlh, hhh, hmid1, hmid1_le, hmid2,
    hmid2_le, muluLimbs_high a b, hll_le, hhl_le, hlh_le, hhh_le⟩

end Sys2Proof.Machine
end

section
/-! PROOFS. 42_divide.md: the divide's domain (R88), DIVU as exact division with remainder (R87, R89), and the round
trips of R91. -/

namespace Sys2Proof.Machine

/-! ### The dividend and the divide's domain (R88) -/

theorem uint_pos_of_ne_zero {x : Word} (hx : x ≠ 0#64) : 0 < uint x :=
  (uint_nonneg x).lt_of_ne' (mt uint_eq_zero_iff.1 hx)

theorem uint_pos_of_uint_lt {x y : Word} (h : uint x < uint y) : 0 < uint y := (uint_nonneg x).trans_lt h

theorem dividend_nonneg (high low : Word) : 0 ≤ dividend high low := by
  have := uint_nonneg high
  have := uint_nonneg low
  rw [dividend]
  omega

/-- The low word cannot carry the dividend over a multiple of 2^64. -/
theorem dividend_lt_mul_iff {high low : Word} {m : Int} : dividend high low < 2 ^ 64 * m ↔ uint high < m := by
  have := uint_nonneg low
  have := uint_lt low
  rw [dividend]
  omega

theorem dividend_div_lt_iff {high low divisor : Word} (hpos : 0 < uint divisor) :
    dividend high low / uint divisor < 2 ^ 64 ↔ uint high < uint divisor := by
  rw [Int.ediv_lt_iff_lt_mul hpos, dividend_lt_mul_iff]

/-- Settles O46: over a positive divisor the test bounds the quotient, and the remainder is below the divisor. -/
theorem domainTestIsQuotientFits : Obligations.DomainTestIsQuotientFits := by
  refine fun high low divisor => ⟨⟨fun hfits => ?_, fun ⟨hnonzero, hquot⟩ => ?_⟩, fun hfits => ?_⟩
  · have hpos := uint_pos_of_uint_lt hfits
    exact ⟨hpos.ne', (dividend_div_lt_iff hpos).2 hfits⟩
  · exact (dividend_div_lt_iff ((uint_nonneg divisor).lt_of_ne' hnonzero)).1 hquot
  · exact (Int.emod_lt_of_pos _ (uint_pos_of_uint_lt hfits)).trans (uint_lt divisor)

/-! ### DIVU in its domain and outside it (R87, R89) -/

theorem bits64_eq_iff_of_range {v : Int} {x : Word} (h0 : 0 ≤ v) (h1 : v < 2 ^ 64) : bits64 v = x ↔ v = uint x :=
  ⟨fun h => h ▸ (uint_bits64_of_range h0 h1).symm, fun h => h ▸ bits64_uint x⟩

theorem divuResponse_of_lt {high divisor : Word} (low : Word) (hfits : uint high < uint divisor) :
    divuResponse high low divisor =
      paired (bits64 (dividend high low / uint divisor)) (bits64 (dividend high low % uint divisor)) := by
  rw [divuResponse, if_pos (divisorNonzero_eq_true_iff.2 (uint_pos_of_uint_lt hfits).ne'),
    if_pos (quotientFits_eq_true_iff.2 hfits)]

theorem divuResponse_of_le {high divisor : Word} (low : Word) (hnonzero : divisor ≠ 0#64)
    (hle : uint divisor ≤ uint high) : divuResponse high low divisor = raiseFault .divideOverflow := by
  rw [divuResponse, if_pos (divisorNonzero_eq_true_iff.2 (mt uint_eq_zero_iff.1 hnonzero)),
    if_neg (mt quotientFits_eq_true_iff.1 hle.not_gt)]

/-- R87: in the domain both results fit in a word, so DIVU's response is the one whose R0 and R1 divide the dividend
with remainder; there is only one such pair. -/
theorem divuResponse_eq_paired_iff {high low divisor q r : Word} (hfits : uint high < uint divisor) :
    divuResponse high low divisor = paired q r ↔
      uint q * uint divisor + uint r = dividend high low ∧ uint r < uint divisor := by
  have hpos := uint_pos_of_uint_lt hfits
  have hquot : bits64 (dividend high low / uint divisor) = q ↔ dividend high low / uint divisor = uint q :=
    bits64_eq_iff_of_range (Int.ediv_nonneg (dividend_nonneg high low) hpos.le) ((dividend_div_lt_iff hpos).2 hfits)
  have hrem : bits64 (dividend high low % uint divisor) = r ↔ dividend high low % uint divisor = uint r :=
    bits64_eq_iff_of_range (Int.emod_nonneg _ hpos.ne') ((Int.emod_lt_of_pos _ hpos).trans (uint_lt divisor))
  rw [divuResponse_of_lt low hfits, paired_eq_paired_iff, hquot, hrem, Int.ediv_emod_unique hpos,
    and_iff_right (uint_nonneg r), mul_comm (uint divisor), add_comm (uint r)]

theorem exists_divuResponse_eq_paired {high divisor : Word} (low : Word) (hfits : uint high < uint divisor) :
    ∃ q r : Word, divuResponse high low divisor = paired q r ∧
      uint q * uint divisor + uint r = dividend high low ∧ uint r < uint divisor :=
  ⟨_, _, divuResponse_of_lt low hfits, (divuResponse_eq_paired_iff hfits).1 (divuResponse_of_lt low hfits)⟩

/-- Settles O24: DIVU's response divides with remainder in the domain and is one of its two faults outside it. -/
theorem divuGivesQuotientAndRemainder : Obligations.DivuGivesQuotientAndRemainder := by
  refine fun high low divisor d s => ⟨rfl, fun hfits => ?domain, ?zero, fun hnonzero hle => ?overflow⟩
  case domain =>
    obtain ⟨q, r, hresponse, hidentity, hrem⟩ := exists_divuResponse_eq_paired low (Nat.cast_lt.2 hfits)
    simp only [dividend, uint_eq_toNat] at hidentity
    exact ⟨q, r, exec_eq_of_responseOf hresponse, mod_cast hidentity, Nat.cast_lt.1 hrem⟩
  case zero =>
    rintro rfl
    exact exec_eq_of_responseOf (divuResponse_zero_divisor high low)
  case overflow => exact exec_eq_of_responseOf (divuResponse_of_le low hnonzero (Nat.cast_le.2 hle))

/-! ### Round trips (R91) -/

/-- The product of a word by the divisor has that word as its quotient, which fits, and leaves no remainder. -/
theorem divuResponse_of_product {a c low high : Word} (hc : c ≠ 0#64)
    (hproduct : uint low + 2 ^ 64 * uint high = uint a * uint c) :
    uint high < uint c ∧ divuResponse high low c = paired a 0#64 := by
  have hpos := uint_pos_of_ne_zero hc
  have hdividend : dividend high low = uint a * uint c := by rw [dividend, ← hproduct]; ring
  have hfits : uint high < uint c := by
    rw [← dividend_div_lt_iff (low := low) hpos, hdividend, Int.mul_ediv_cancel _ hpos.ne']
    exact uint_lt a
  refine ⟨hfits, (divuResponse_eq_paired_iff hfits).2 ⟨?_, ?_⟩⟩
  · rw [uint_zero, add_zero, hdividend]
  · exact uint_zero ▸ hpos

/-- Settles O47: the identity in the domain, its case of a zero high word, and the division of a product. -/
theorem divuUndoesMulu : Obligations.DivuUndoesMulu := by
  refine fun a b c s => ⟨fun hfits => ?identity, fun hc => ?roundTrip, fun hc => ?undo⟩
  case identity =>
    obtain ⟨q, r, hresponse, hidentity, hrem⟩ := exists_divuResponse_eq_paired b hfits
    exact ⟨q, r, answerAt_eq_of_responseOf hresponse, hidentity, uint_nonneg r, hrem⟩
  case roundTrip =>
    obtain ⟨q, r, hresponse, hidentity, -⟩ := exists_divuResponse_eq_paired b (uint_zero ▸ uint_pos_of_ne_zero hc)
    exact ⟨q, r, answerAt_eq_of_responseOf hresponse, hidentity.trans (dividend_zero b)⟩
  case undo =>
    obtain ⟨low, high, hmulu, hproduct⟩ := exists_muluResponse_eq_paired a c
    obtain ⟨hfits, hdivu⟩ := divuResponse_of_product hc hproduct
    exact ⟨low, high, answerAt_eq_of_responseOf hmulu, hfits, answerAt_eq_of_responseOf hdivu⟩

end Sys2Proof.Machine
end

section
/-! PROOFS. 43_counter.md: RDCYC reads CNT (R93) and has no side effect (R95). -/

namespace Sys2Proof.Machine

/-- Settles O25: RDCYC's response is CNT alone, and presenting a response changes only what the instance is doing. -/
theorem rdcycGivesCntAndKeepsIt : Obligations.RdcycGivesCntAndKeepsIt := by
  intro a b c d s
  have hresponse : responseOf (.rdcyc a b c d) s.cnt = single s.cnt := responseOf_of_rdcyc rfl s.cnt
  exact ⟨rfl, exec_eq_of_responseOf hresponse⟩

end Sys2Proof.Machine
end

section
/-! PROOFS. 44_lane_vector.md: VSHL (R99, R101), VSUB (R102), and each lane as a scalar operation (R104). -/

namespace Sys2Proof.Machine

/-- The check on port C (30_encoding.md R60), on the word's number. -/
theorem shiftInRange_iff_toNat_le {c : Word} : shiftInRange c = true ↔ c.toNat ≤ 63 := by
  rw [shiftInRange_eq_true_iff, uint_eq_toNat, Nat.cast_le_ofNat]

/-- R99: a multiple by a power of two, cut to 64 bits, is the word shifted left. -/
theorem shiftLane_eq_shiftLeft (x : Word) (n : Nat) : shiftLane x n = x <<< n := by
  apply uint_injective
  rw [shiftLane, uint_bits64, uint_eq_toNat, uint_eq_toNat, BitVec.toNat_shiftLeft, Nat.shiftLeft_eq]
  push_cast
  rfl

theorem vshlResponse_of_le {x y n : Word} (hn : n.toNat ≤ 63) :
    vshlResponse x y n = paired (shiftLane x n.toNat) (shiftLane y n.toNat) :=
  if_pos (shiftInRange_iff_toNat_le.2 hn)

theorem vshlResponse_of_64_le {x y n : Word} (hn : 64 ≤ n.toNat) : vshlResponse x y n = raiseFault .shiftRange :=
  if_neg fun h => absurd (shiftInRange_iff_toNat_le.1 h) (Nat.not_le.2 hn)

/-- Settles O26: VSHL's response shifts each lane in the domain and is the fault outside it. -/
theorem vshlShiftsEachLane : Obligations.VshlShiftsEachLane := by
  refine fun v0 v1 amount d s => ⟨rfl, fun hle => ?_, fun hge => exec_eq_of_responseOf (vshlResponse_of_64_le hge)⟩
  rw [← shiftLane_eq_shiftLeft, ← shiftLane_eq_shiftLeft]
  exact exec_eq_of_responseOf (vshlResponse_of_le hle)

/-- Settles O27: VSUB's response holds the two differences, on every operand. -/
theorem vsubSubtractsEachLane : Obligations.VsubSubtractsEachLane :=
  fun a0 a1 b0 b1 _ => ⟨rfl, exec_eq_of_responseOf (vsubResponse_eq a0 a1 b0 b1)⟩

/-- Settles O51: SBB without a borrow-in and VSUB's lanes give the same differences, and a lane of VSHL is defined as the
scalar multiple. -/
theorem lanesMatchTheScalarOperations : Obligations.LanesMatchTheScalarOperations := by
  intro x0 x1 y0 y1 n s
  have hlane (x y : Word) : answerAt s (.sbb x y 0#64 0#64) = some (flagged (x - y) _) :=
    answerAt_eq_of_responseOf (sbbResponse_zero x y)
  have hvsub : answerAt s (.vsub x0 x1 y0 y1) = some (paired (x0 - y0) (x1 - y1)) :=
    answerAt_eq_of_responseOf (vsubResponse_eq x0 x1 y0 y1)
  exact ⟨⟨_, _, _, _, hlane x0 y0, hlane x1 y1, hvsub⟩, fun hn => answerAt_eq_of_responseOf (vshlResponse_of_le hn)⟩

end Sys2Proof.Machine
end

section
/-! PROOFS. 60_exceptions.md: the codes and their numbers (R105), reserved OPs (R106), the order of the checks (R112),
and fault responses that are taken (R111, R114, R123). -/

namespace Sys2Proof.Machine

/-! ### The fault codes (R105) -/

/-- Reading a code inverts writing its number, and no number above 5 is read. -/
theorem FCode.ofBits_eq_some_iff {v : BitVec 3} {c : FCode} :
    FCode.ofBits v = some c ↔ c.bits = v ∧ v.toNat ≤ 5 := by
  constructor
  · intro hread
    by_cases hle : v.toNat ≤ 5
    · obtain ⟨code, rfl⟩ := FCode.exists_bits_eq hle
      rw [FCode.ofBits_bits, Option.some.injEq] at hread
      exact ⟨hread ▸ rfl, hle⟩
    · rw [FCode.ofBits_eq_none v (Nat.not_le.1 hle)] at hread
      cases hread
  · rintro ⟨rfl, -⟩
    exact FCode.ofBits_bits c

/-- Settles O38: the table's numbers, and reading as their inverse. -/
theorem faultCodesHaveTheirNumbers : Obligations.FaultCodesHaveTheirNumbers :=
  ⟨rfl, rfl, rfl, rfl, rfl, rfl, fun _ _ => FCode.ofBits_eq_some_iff⟩

/-! ### Which fault a request gets (R106, R112) -/

theorem decodeReq_of_divuOp {req : Request} (hop : req.op.toNat = 4) :
    decodeReq req = .divu req.a req.b req.c req.d := by
  simp only [decodeReq, hop]

/-- A reserved OP is rejected before any operand is looked at. -/
theorem responseOf_of_reservedOp {req : Request} (hop : 8 ≤ req.op.toNat) (cnt : Word) :
    responseOf (decodeReq req) cnt = raiseFault .illegalOp := by
  have hdecode : decodeReq req = .reserved req.op req.a req.b req.c req.d := decodeReq_of_reserved hop _ _ _ _
  rw [hdecode, responseOf]

theorem responseOf_of_divuOp {req : Request} (hop : req.op.toNat = 4) (cnt : Word) :
    responseOf (decodeReq req) cnt = divuResponse req.a req.b req.c := by
  rw [decodeReq_of_divuOp hop, responseOf]

/-- Settles O28: a reserved OP decodes to the reserved command, whose response is the fault. -/
theorem reservedOpAnswersIllegalOp : Obligations.ReservedOpAnswersIllegalOp :=
  fun req s hop => ⟨decodeReq_of_reserved hop req.a req.b req.c req.d, exec_eq_present _ s⟩

/-- Settles O32: a reserved OP is decided by the decoder, and DIVU checks its divisor for 0 before it compares it with
the high word. -/
theorem faultsAreChosenInOrder : Obligations.FaultsAreChosenInOrder := by
  refine fun req s => ⟨responseOf (decodeReq req) s.cnt, exec_eq_present _ s, fun hop => ?illegal,
    fun hop hzero => ?zero, fun hop hnonzero hle => ?overflow⟩
  case illegal => rw [responseOf_of_reservedOp hop, raiseFault_fcode]
  case zero =>
    refine ⟨hzero ▸ uint_nonneg req.a, ?_⟩
    rw [responseOf_of_divuOp hop, uint_eq_zero_iff.1 hzero, divuResponse_zero_divisor, raiseFault_fcode]
  case overflow =>
    rw [responseOf_of_divuOp hop, divuResponse_of_le _ (mt uint_eq_zero_iff.2 hnonzero) hle, raiseFault_fcode]

/-! ### Taking a fault response (R111, R114, R123) -/

/-- 10_state.md R25 at an edge without reset: what happens to the presented response is the requester's decision. -/
theorem step_of_presented {s : State} {rsp : Response} (hunit : s.unit = .presented rsp) (hrst : s.edge.rst = false) :
    step s = s.runEdge.take s.edge rsp := by
  simp [step, hunit, hrst]

/-- A fault response ends the step of a requester that stops on it (log 7). -/
theorem State.take_of_stop {s : State} {e : Edge} {rsp : Response} (hready : e.rspReady = true)
    (hfault : rsp.fcode ≠ .noFault) (hstop : e.onFault = .stop) :
    s.take e rsp = .fault (.faultResponse (decodeReq s.asked.req).name rsp.fcode) := by
  rw [State.take, if_pos hready, if_pos ⟨hfault, hstop⟩]

/-- Settles O34: by the requester's policy, the edge takes the response as it takes any other, or ends in the fault. -/
theorem takingAFaultResponse : Obligations.TakingAFaultResponse := by
  refine fun s rsp hunit hfault hrst hready => ⟨fun hgo => ?carryOn, fun hstop => ?stop⟩
  case carryOn =>
    exact ⟨_, (State.EdgeTo.takes hrst hunit hready (.inr hgo)).step_eq, rfl, rfl,
      fun hnext => State.reqReady_eq_true_iff.2 ⟨hnext, rfl⟩⟩
  case stop =>
    rw [step_of_presented hunit hrst, State.take_of_stop hready hfault hstop, State.runEdge_asked]

end Sys2Proof.Machine
end

section
/-! PROOFS. 70_reset_and_hazards.md: what a reset edge does and the state after reset (R124, R125), readiness until a
request is accepted (R126), and progress of a request in flight (R132). -/

namespace Sys2Proof.Machine

/-! ### Reset (R124, R125) -/

theorem State.reqReady_of_rst {s : State} (hrst : s.edge.rst = true) : s.reqReady = false := by
  simp [State.reqReady, hrst]

theorem State.rspValid_of_rst {s : State} (hrst : s.edge.rst = true) : s.rspValid = false := by
  cases hunit : s.unit <;> simp [State.rspValid, hunit, hrst]

theorem State.rspValid_of_idle {s : State} (hunit : s.unit = .idle) : s.rspValid = false := by
  simp [State.rspValid, hunit]

theorem step_of_rst {s : State} (hrst : s.edge.rst = true) : step s = .next s.resetEdge :=
  (State.EdgeTo.reset hrst).step_eq

@[simp] theorem State.reset_unit : State.reset.unit = .idle := rfl
@[simp] theorem State.reset_record : State.reset.record = [] := rfl

/-- Settles O14: the reset edge leads to `State.resetEdge`, whatever was in flight or presented. -/
theorem resetEdgeDiscardsAndSetsCnt : Obligations.ResetEdgeDiscardsAndSetsCnt := fun s hrst =>
  ⟨State.reqReady_of_rst hrst, State.rspValid_of_rst hrst, s.resetEdge, step_of_rst hrst, s.resetEdge_unit,
    State.rspValid_of_idle s.resetEdge_unit, s.resetEdge_cnt, s.resetEdge_record⟩

/-- Settles O15: an idle instance presents nothing, so no output holds a value, and with no reset at the next edge it is
ready. -/
theorem resetStateIsIdleAndReady : Obligations.ResetStateIsIdleAndReady := by
  have hinvalid : State.reset.rspValid = false := State.rspValid_of_idle State.reset_unit
  obtain ⟨hports, hfcode⟩ := (outputsHoldValuesOnlyWhileValid State.reset).1 hinvalid
  exact ⟨State.reset_unit, State.reqReady_eq_true_iff.2 ⟨rfl, State.reset_unit⟩, hinvalid, hports, hfcode, rfl⟩

/-- Settles O54: right after reset nothing is in flight, presented or recorded. -/
theorem responsesConsistentAtReset : Obligations.ResponsesConsistentAtReset := by
  refine ⟨fun req hflight => ?_, fun rsp hpres => ?_, fun tag req rsp hmem => ?_⟩
  · cases State.reset_unit.symm.trans hflight
  · cases State.reset_unit.symm.trans hpres
  · exact absurd hmem (State.reset_record ▸ List.not_mem_nil)

/-! ### Readiness (R126) -/

/-- An idle instance stays idle at an edge without reset, or has accepted a request. -/
theorem step_unit_of_idle {s t : State} (h : step s = .next t) (hrst : s.edge.rst = false) (hunit : s.unit = .idle) :
    t.unit = .idle ∨ ∃ req, t.unit = .inFlight req := by
  cases State.edgeTo_of_step h with
  | reset hr => cases hrst.symm.trans hr
  | idles => exact .inl hunit
  | accepts => exact .inr ⟨_, rfl⟩
  | waits _ hbusy => cases hunit.symm.trans hbusy
  | answers _ hbusy => cases hunit.symm.trans hbusy
  | holds _ hbusy => cases hunit.symm.trans hbusy
  | takes _ hbusy => cases hunit.symm.trans hbusy

/-- Settles O16: where the next edge carries no reset, being idle is being ready. -/
theorem readyFromResetUntilAcceptance : Obligations.ReadyFromResetUntilAcceptance := by
  intro s t h hnext
  have hready (hidle : t.unit = .idle) : t.reqReady = true := State.reqReady_eq_true_iff.2 ⟨hnext, hidle⟩
  refine ⟨fun hrst => ?reset, fun hrst hunit => (step_unit_of_idle h hrst hunit).imp_left hready⟩
  case reset =>
    obtain rfl : s.resetEdge = t := Host.Outcome.next.inj ((step_of_rst hrst).symm.trans h)
    exact ⟨s.resetEdge_unit, hready s.resetEdge_unit⟩

/-! ### Progress (R132) -/

theorem State.Reaches.refl (s : State) : s.Reaches 0 s := rfl

theorem State.Reaches.of_step {s u t : State} {k : Nat} (h : step s = .next u) (hrun : u.Reaches k t) :
    s.Reaches (k + 1) t := by
  have hcore : core.step s = .next u := h
  simp only [State.Reaches, Host.Core.run, hcore]
  exact hrun

theorem State.edge_of_lines_nil {s : State} (h : s.lines = []) : s.edge = Edge.quiet := by simp [State.edge, h]

theorem State.edge_of_lines_cons {s : State} {e : Edge} {rest : List Edge} (h : s.lines = e :: rest) : s.edge = e := by
  simp [State.edge, h]

theorem State.noReset.edge_rst {s : State} (h : s.noReset) : s.edge.rst = false := by
  cases hlines : s.lines with
  | nil => rw [State.edge_of_lines_nil hlines]; rfl
  | cons e rest =>
    rw [State.edge_of_lines_cons hlines]
    exact h e (hlines ▸ List.mem_cons_self)

theorem State.noReset.runEdge {s : State} (h : s.noReset) : s.runEdge.noReset :=
  fun e he => h e (List.mem_of_mem_tail he)

/-- `k` steps lead from `s` to a state that presents a response of `req`'s operation. -/
def State.AnswersAfter (s : State) (req : Request) (k : Nat) : Prop :=
  ∃ (t : State) (rsp : Response), s.Reaches k t ∧ t.unit = .presented rsp ∧ AnsweredAs req rsp

theorem State.answersAfter_one {s : State} {req : Request} (hunit : s.unit = .inFlight req) (hrst : s.edge.rst = false)
    (hdone : s.edge.done = true) : s.AnswersAfter req 1 :=
  ⟨_, _, .of_step (State.EdgeTo.answers hrst hunit hdone).step_eq (.refl _), State.present_unit _ _,
    answeredAs_responseOf req s.runEdge⟩

theorem State.AnswersAfter.of_step {s u : State} {req : Request} {k : Nat} (h : step s = .next u) :
    u.AnswersAfter req k → s.AnswersAfter req (k + 1)
  | ⟨t, rsp, hrun, hpres, hans⟩ => ⟨t, rsp, .of_step h hrun, hpres, hans⟩

/-- R132's weak fairness: each listed edge answers or waits and is used up, and an edge after the list answers
(log 2). -/
theorem State.exists_answersAfter {s : State} {req : Request} (hunit : s.unit = .inFlight req) (hno : s.noReset) :
    ∃ k ≤ s.lines.length + 1, s.AnswersAfter req k := by
  induction hlines : s.lines generalizing s with
  | nil =>
    have hdone : s.edge.done = true := by rw [State.edge_of_lines_nil hlines]; rfl
    exact ⟨1, le_rfl, State.answersAfter_one hunit hno.edge_rst hdone⟩
  | cons e rest ih =>
    cases hdone : s.edge.done with
    | true => exact ⟨1, Nat.le_add_left 1 _, State.answersAfter_one hunit hno.edge_rst hdone⟩
    | false =>
      have hrest : s.runEdge.lines = rest := by rw [State.runEdge_lines, hlines, List.tail_cons]
      have hwait : step s = .next s.runEdge := (State.EdgeTo.waits hno.edge_rst hunit hdone).step_eq
      obtain ⟨k, hk, hans⟩ := ih (s := s.runEdge) hunit hno.runEdge hrest
      exact ⟨k + 1, Nat.succ_le_succ hk, hans.of_step hwait⟩

/-- Settles O52: the edges listed bound the wait. -/
theorem requestInFlightIsAnswered : Obligations.RequestInFlightIsAnswered := by
  intro s req hunit hno
  obtain ⟨k, hk, t, rsp, hrun, hpres, hans⟩ := State.exists_answersAfter hunit hno
  exact ⟨k, t, rsp, hk, hrun, hpres, hans⟩

end Sys2Proof.Machine
end
